-- ==== Sys2Proof/Word.lean ====
section
/-! DEFINITION. The word types of the engine (spec/00_scope.md R4, R8). -/

namespace Sys2Proof

/-- One entry of the Pulse Buffer: an unsigned 16-bit duration, 0 being STOP (30 R67). -/
abbrev Entry := BitVec 16

/-- One queued value of the timing peripheral: an unsigned 32-bit tick count (30 R69). -/
abbrev Ticks := BitVec 32

/-- One command word of the host command port (30 R64). -/
abbrev Command := BitVec 32

end Sys2Proof
end

