-- ==== Sys2Proof/Config.lean ====
section
/-! DEFINITION. Constants, the configuration record and the free values (spec/00_scope.md R4 to R6). -/

namespace Sys2Proof

/-- Half-bit duration in microseconds, `T_HALF` (00 R4). -/
abbrev tHalf : Entry := 889#16

/-- Capacity of the Pulse Buffer in entries, `CAP` (00 R5). -/
abbrev CAP : Nat := 29

/-- Bits of the computed part of the frame, `DATA_BITS` (00 R5). -/
abbrev dataBits : Nat := 13

/-- Largest number of entries `SEND` preloads, `PRELOAD_MAX` (00 R4). -/
abbrev preloadMax : Nat := 4

/-- The sentinel entry, `STOP` (00 R4). -/
abbrev STOP : Entry := 0#16

/-- Largest value of one entry (30 R67). -/
abbrev entryMax : Nat := 65535

/-- Longest sequence `ENCODE` writes from an empty buffer, `MAX_LIVE` (00 R5). -/
abbrev maxLive : Nat := 27

/-- Sum of the entries `ENCODE` writes from an empty buffer, `FRAME_US` (00 R5). -/
abbrev frameUs : Nat := 24003

/-- `VOL_ADDR` (00 R4). -/
abbrev volAddr : BitVec 5 := 16#5

/-- `VOL_UP_CMD` (00 R4). -/
abbrev volUpCmd : BitVec 7 := 16#7

/-- `VOL_DN_CMD` (00 R4). -/
abbrev volDnCmd : BitVec 7 := 17#7

/-- Order of the toggle and inverted-bit-6 sub-fields, `cfg.FIELD_ORDER` (00 R6, 30 R61). -/
inductive FieldOrder where
  | doc
  | rc5std
deriving DecidableEq, Repr

/-- The configuration record `cfg` of 00 R6. No command and no reset changes it (70 R162). -/
structure Cfg where
  /-- `cfg.FIELD_ORDER` (30 R61). -/
  fieldOrder : FieldOrder
  /-- `cfg.PAD_SPACE_US`: duration of the padding space, 1 to 65535 (42 R103). -/
  padSpaceUs : Entry
  /-- `cfg.FIFO_DEPTH`: capacity of the queue, at least 4 (10 R20). -/
  fifoDepth : Nat
  /-- `cfg.CARRIER_HZ`: carrier frequency in hertz (43 R131). -/
  carrierHz : Nat
  /-- `cfg.DUTY_ON_PCT`: the percentage of each period the pin is high while `level` is on, 1 to 100
  (43 R130). -/
  dutyOnPct : Nat
  /-- `cfg.ACTIVE_LOW`: hardware polarity (43 R132). -/
  activeLow : Bool
deriving DecidableEq, Repr

/-- The on duty of the default configuration, less one: the spec gives `cfg.DUTY_ON_PCT` no default
(92 D15), so it is a free constant. See notes/assumptions/4.md. -/
opaque Config.dutyOnPctMinusOne : Fin 100

/-- The on duty of the default configuration in percent: some integer from 1 to 100 (00 R6). -/
def Config.dutyOnPct : Nat := Config.dutyOnPctMinusOne.val + 1

/-- The default configuration of 00 R6 and 92 (its table of open parameters). -/
def Cfg.default : Cfg :=
  { fieldOrder := .doc, padSpaceUs := 1#16, fifoDepth := 4, carrierHz := 36000,
    dutyOnPct := Config.dutyOnPct, activeLow := false }

/-- The legal values of 10 R26. -/
abbrev Cfg.legal (c : Cfg) : Prop :=
  c.padSpaceUs ≠ 0#16 ∧ 4 ≤ c.fifoDepth ∧ 0 < c.carrierHz ∧ 1 ≤ c.dutyOnPct ∧ c.dutyOnPct ≤ 100

/-- The free values: what `cur` holds where a rule leaves it unspecified (43 R125, 10 R32).
See notes/assumptions/9.md. -/
opaque Config.unspecifiedCur : Nat → Ticks

end Sys2Proof
end

