-- ==== Sys2Proof/Syntax.lean ====
section
/-! DEFINITION. The host commands, one constructor per row of spec/opcode_table.json, operands in the
order of the assembler syntax (spec/30_encoding.md R65, R66, R72). -/

namespace Sys2Proof

/-- The nine host commands (30 R65). -/
inductive Instr where
  /-- `TRANSMIT address, command, toggle` (41 R94). -/
  | transmit (address : BitVec 5) (command : BitVec 7) (toggle : Bool)
  /-- `ENCODE address, command, toggle` (40 R80). -/
  | encode (address : BitVec 5) (command : BitVec 7) (toggle : Bool)
  /-- `BUFRST` (41 R90). -/
  | bufrst
  /-- `APPEND duration` (41 R91). -/
  | append (duration : Entry)
  /-- `ADD duration`, a signed operand (41 R92, 30 R68). -/
  | add (duration : Int)
  /-- `TRIGGER` (41 R93). -/
  | trigger
  /-- `SEND repeats, validate` (42 R100). -/
  | send (repeats : BitVec 16) (validate : Bool)
  /-- `BUSY` (42 R108). -/
  | busy
  /-- `CANCEL` (42 R110). -/
  | cancel
deriving DecidableEq, Repr

/-- `VOLUP` (30 R73, 41 R96). -/
def Instr.volUp : Instr := .transmit volAddr volUpCmd false

/-- `VOLDN` (30 R73, 41 R96). -/
def Instr.volDn : Instr := .transmit volAddr volDnCmd false

/-- `APPEND d1, ..., dk` (30 R73). -/
def Instr.appendAll (ds : List Entry) : List Instr := ds.map .append

/-- `SEND r`: `validate` defaults to 1 (30 R73). -/
def Instr.sendTimes (repeats : BitVec 16) : Instr := .send repeats true

/-- `SEND` with no operands: `SEND 1, 1` (30 R73). -/
def Instr.sendOnce : Instr := .sendTimes 1#16

end Sys2Proof
end

