-- ==== Sys2Proof/WellFormed.lean ====
section
/-! DEFINITION. Which commands the command word can carry (spec/30_encoding.md R63, R66, R68). -/

namespace Sys2Proof

/-- The operand of `ADD` fits 17 bits of two's complement (30 R68). -/
abbrev addOperandFits (t : Int) : Prop := -65536 ≤ t ∧ t ≤ 65535

/-- A command is well formed when every operand has an encoding. All operands but `ADD`'s have
exactly the width of their field, so an out-of-range value cannot be written (30 R63). -/
def Instr.wf : Instr → Bool
  | .transmit _ _ _ => true
  | .encode _ _ _ => true
  | .bufrst => true
  | .append _ => true
  | .add t => decide (addOperandFits t)
  | .trigger => true
  | .send _ _ => true
  | .busy => true
  | .cancel => true

end Sys2Proof
end

