-- ==== Sys2Proof/Decode.lean ====
section
/-! DEFINITION. The command decoder and encoder (spec/30_encoding.md R64 to R66, R68, R70). -/

namespace Sys2Proof

/-- One row of the opcode table: a word `w` selects it when `w and mask = pattern` (30 R66). -/
structure Row where
  mask : Command
  pattern : Command
deriving DecidableEq, Repr

/-- Why a word selects no command (30 R70); both are `IllegalCommandFault`. -/
inductive Illegal where
  /-- The opcode is 0 or 10 to 15. -/
  | reservedOpcode
  /-- The opcode is defined and a must-be-zero bit is 1. -/
  | mustBeZeroBitSet
deriving DecidableEq, Repr

/-- The row of a command (30 R66, columns match and mask). -/
def Instr.row : Instr → Row
  | .transmit _ _ _ => ⟨0xFFFFE000#32, 0x10000000#32⟩
  | .encode _ _ _ => ⟨0xFFFFE000#32, 0x20000000#32⟩
  | .bufrst => ⟨0xFFFFFFFF#32, 0x30000000#32⟩
  | .append _ => ⟨0xFFFF0000#32, 0x40000000#32⟩
  | .add _ => ⟨0xFFFE0000#32, 0x50000000#32⟩
  | .trigger => ⟨0xFFFFFFFF#32, 0x60000000#32⟩
  | .send _ _ => ⟨0xFFFE0000#32, 0x70000000#32⟩
  | .busy => ⟨0xFFFFFFFF#32, 0x80000000#32⟩
  | .cancel => ⟨0xFFFFFFFF#32, 0x90000000#32⟩

/-- The word selects the row (30 R66). -/
def Row.selects (r : Row) (w : Command) : Bool := w &&& r.mask == r.pattern

/-- The opcode, `word[31:28]` (30 R64). -/
def opcode (w : Command) : BitVec 4 := w.extractLsb' 28 4

/-- The toggle operand, `word[12]` (30 R66). -/
def toggleField (w : Command) : Bool := w.getLsbD 12

/-- The address operand, `word[11:7]` (30 R66). -/
def addressField (w : Command) : BitVec 5 := w.extractLsb' 7 5

/-- The command operand, `word[6:0]` (30 R66). -/
def commandField (w : Command) : BitVec 7 := w.extractLsb' 0 7

/-- The duration of `APPEND`, `word[15:0]` (30 R66). -/
def durationField (w : Command) : Entry := w.extractLsb' 0 16

/-- The operand of `ADD`: `sext(word[16:0])` (30 R68). -/
def signedField (w : Command) : Int := (w.extractLsb' 0 17).toInt

/-- The repeats of `SEND`, `word[15:0]` (30 R66). -/
def repeatsField (w : Command) : BitVec 16 := w.extractLsb' 0 16

/-- The validate bit of `SEND`, `word[16]` (30 R66). -/
def validateField (w : Command) : Bool := w.getLsbD 16

/-- The command an opcode names, its operands read from the word; none for the reserved opcodes
0x0 and 0xA to 0xF (30 R65). -/
def commandOf (w : Command) : Option Instr :=
  match (opcode w).toNat with
  | 1 => some (.transmit (addressField w) (commandField w) (toggleField w))
  | 2 => some (.encode (addressField w) (commandField w) (toggleField w))
  | 3 => some .bufrst
  | 4 => some (.append (durationField w))
  | 5 => some (.add (signedField w))
  | 6 => some .trigger
  | 7 => some (.send (repeatsField w) (validateField w))
  | 8 => some .busy
  | 9 => some .cancel
  | _ => none

/-- The decoder: total on every word, rejecting by name (30 R66, R70). -/
def decode (w : Command) : Except Illegal Instr :=
  match commandOf w with
  | none => .error .reservedOpcode
  | some i => if i.row.selects w then .ok i else .error .mustBeZeroBitSet

/-- The word of a command, field by field from the most significant end (the patterns of 30 R66). -/
def encode : Instr → Command
  | .transmit a c g => 0x1#4 ++ 0#15 ++ BitVec.ofBool g ++ a ++ c
  | .encode a c g => 0x2#4 ++ 0#15 ++ BitVec.ofBool g ++ a ++ c
  | .bufrst => 0x3#4 ++ 0#28
  | .append d => 0x4#4 ++ 0#12 ++ d
  | .add t => 0x5#4 ++ 0#11 ++ BitVec.ofInt 17 t
  | .trigger => 0x6#4 ++ 0#28
  | .send r v => 0x7#4 ++ 0#11 ++ BitVec.ofBool v ++ r
  | .busy => 0x8#4 ++ 0#28
  | .cancel => 0x9#4 ++ 0#28

/-- The word that carries an opcode-table row's bits: a command is one 32-bit word, the bits above
`nbits` zero. -/
def tableWord (nbits w : Nat) : Command := BitVec.ofNat 32 (w % 2 ^ nbits)

/-- The command the decoder reads from a table row's bits. -/
def decodeTableWord (nbits w : Nat) : Option Instr :=
  match decode (tableWord nbits w) with
  | .ok i => some i
  | .error _ => none

end Sys2Proof
end

