-- ==== Sys2Proof/Machine/State.lean ====
section
/-! DEFINITION. The state of the engine (spec/10_state.md), its observation and its environment. -/

namespace Sys2Proof.Machine

/-- `on` or `off`: the values of `carrier` and `level` (00 R8). -/
inductive OnOff where
  | on
  | off
deriving DecidableEq, Repr

/-- The half of the two-phase pulse loop the next dequeued value belongs to (10 R21). -/
inductive Phase where
  /-- "assert output pin". -/
  | X
  /-- "deassert". -/
  | Y
deriving DecidableEq, Repr

/-- One listed entry of the Pulse Buffer: its index and its value. -/
abbrev Cell := Nat × Entry

/-- The Pulse Buffer `arr`, as its non-zero entries, indices strictly rising; an index that is not
listed reads as 0, the reset contents (10 R32). See notes/assumptions/11.md. -/
abbrev Memory := List Cell

/-- The sixteen state elements of the block and nothing else (10 R10). -/
structure Block where
  /-- `arr`, the Pulse Buffer (10 R11). -/
  arr : Memory
  /-- `aptr`, where the next `APPEND` writes; 0 to `CAP` (10 R12). -/
  aptr : Nat
  /-- `carrier`, the tracked polarity (10 R13). -/
  carrier : OnOff
  /-- `reps`, the remaining repeat count; 0 is infinite (10 R14). -/
  reps : BitVec 16
  /-- `icm`, the live length `SEND` found; 0 to `CAP - 1` (10 R15). -/
  icm : Nat
  /-- `ict`, the processed-interrupt count (10 R16). -/
  ict : Nat
  /-- `apt`, the next entry `FEED` fetches; 0 to `CAP` (10 R17). -/
  apt : Nat
  /-- `started`: a `SEND` has run since reset (10 R18). -/
  started : Bool
  /-- `active`: the peripheral is activated (10 R19). -/
  active : Bool
  /-- `fifo`, the peripheral's queue, head first (10 R20). -/
  fifo : List Ticks
  /-- `phase` (10 R21). -/
  phase : Phase
  /-- `running`: the peripheral is holding for `cur` (10 R22). -/
  running : Bool
  /-- `cur`, meaningful only while `running` (10 R22). -/
  cur : Ticks
  /-- `pin`, the peripheral's own output pin (10 R23). -/
  pin : Bool
  /-- `level`, the duty the carrier output has (10 R24). -/
  level : OnOff
  /-- `feed_fault`, sticky until reset (10 R25). -/
  feedFault : Bool
deriving DecidableEq, Repr

/-- One output segment (10 R33): what the peripheral held, under which pin and level. -/
structure Segment where
  pin : Bool
  level : OnOff
  ticks : Ticks
  truncated : Bool
deriving DecidableEq, Repr

/-- The faults a host command reports, with the value recorded (60 R135). -/
inductive HostFault where
  /-- `ADD` with an operand `t <= 0`. -/
  | precondition (t : Int)
  /-- `ADD` with nothing appended. -/
  | noEntry
  /-- `ADD` whose sum `s` exceeds an entry. -/
  | entryOverflow (s : Int)
  /-- `APPEND` with the buffer full. -/
  | bufferOverflow (aptr : Nat)
  /-- A word that selects no command. -/
  | illegalCommand (w : Command)
deriving DecidableEq, Repr

/-- The status of a response (30 R71). -/
inductive Status where
  | ok
  | fault (f : HostFault)
deriving DecidableEq, Repr

/-- The response to a command (30 R71). -/
structure Response where
  status : Status
  value : Bool
deriving DecidableEq, Repr

/-- Who takes the next step (60 R143); the environment's choice. -/
inductive Turn where
  /-- The host issues its next primitive. -/
  | host
  /-- The timing peripheral takes its enabled step. -/
  | tmr
  /-- The `RESET` input is pulled (70 R160). -/
  | reset
deriving DecidableEq, Repr

/-- Why the machine stops. -/
inductive Fault where
  /-- An access to an entry outside 0 to `CAP - 1`, which 20 R40 says does not exist. Raised by the
  buffer primitives, and only in a state with `aptr` above `CAP`, which no run reaches. Safe. -/
  | bufferIndex (i : Nat)
deriving DecidableEq, Repr

/-- Why a command is refused. -/
inductive Refusal where
  /-- The instruction has no meaning yet; raised by an arm of `exec`. Safe. No arm raises it. -/
  | notModelled (mnemonic : String)
deriving DecidableEq, Repr

/-- The whole machine: the configuration, the block, what it has emitted, and its environment. -/
structure State where
  /-- `cfg`, fixed at construction; no step changes it (70 R162). -/
  cfg : Cfg
  /-- The state of the block (10 R10). -/
  blk : Block
  /-- `trace`, the segments emitted since reset, oldest first; no rule reads it (10 R33). -/
  trace : List Segment
  /-- The last response on the command port (30 R71); no rule reads it. -/
  response : Option Response
  /-- The words the host has yet to issue (MODEL's own; notes/assumptions/6.md). -/
  port : List Command
  /-- Who moves next (MODEL's own; notes/assumptions/5.md). -/
  agenda : List Turn
  /-- How many free values have been used (MODEL's own; notes/assumptions/9.md). -/
  freeIx : Nat
deriving DecidableEq, Repr

/-- The reset values of 10 R32; `cur` is unspecified there and is given by the caller. -/
def Block.afterReset (cur : Ticks) : Block :=
  { arr := [], aptr := 0, carrier := .off, reps := 0#16, icm := 0, ict := 0, apt := 0,
    started := false, active := false, fifo := [], phase := .X, running := false, cur := cur,
    pin := false, level := .off, feedFault := false }

/-- The machine right after reset (10 R32, 70 R161) with the default configuration
(notes/assumptions/3.md, its on duty notes/assumptions/4.md). `cur` is 0 by DESIGN CHOICE
(notes/assumptions/10.md). -/
def State.reset : State :=
  { cfg := Cfg.default, blk := Block.afterReset 0#32, trace := [], response := none, port := [],
    agenda := [], freeIx := 0 }

end Sys2Proof.Machine
end

