-- ==== Sys2Proof/Machine/Flags.lean ====
section
/-! DEFINITION. How the two-valued elements are computed (spec/10_state.md R30). -/

namespace Sys2Proof.Machine

/-- `not` on a polarity (00 R8). -/
def OnOff.flip : OnOff → OnOff
  | .on => .off
  | .off => .on

/-- The other phase (43 R121). -/
def Phase.flip : Phase → Phase
  | .X => .Y
  | .Y => .X

/-- The pin while a value of this phase is held: X asserts, Y deasserts (43 R121). -/
def pinOfPhase : Phase → Bool
  | .X => true
  | .Y => false

/-- The level `FEED` sets: `on` when `ict` is even (42 R105). -/
def levelOfCount (ict : Nat) : OnOff := if ict % 2 = 0 then .on else .off

/-- The value bit of `BUSY` (42 R108). -/
def busyValue (b : Block) : Bool := b.started && decide (b.ict < b.icm)

/-- TMR's dequeue step is enabled (43 R121). -/
def dequeueEnabled (b : Block) : Bool := b.active && !b.running && !b.fifo.isEmpty && !b.feedFault

/-- TMR's elapse step is enabled (43 R122). -/
def elapseEnabled (b : Block) : Bool := b.active && b.running && !b.feedFault

/-- `Idle` of the driver's state machine: deactivated, or activated and stalled (42 R114). -/
def isIdle (b : Block) : Bool := !b.active || (!b.running && b.fifo.isEmpty)

/-- `Priming`: the state `SEND` leaves for a non-empty sequence (42 R114). -/
def isPriming (b : Block) : Bool := b.active && !b.running && !b.fifo.isEmpty && b.ict == 0

/-- `Streaming`: a value is held or queued, after the first dequeue since `SEND`. After a dequeue
`ict` is at least 1, before it is 0 (42 R114, R105; notes/assumptions/22.md). -/
def isStreaming (b : Block) : Bool := b.active && (b.running || !b.fifo.isEmpty) && b.ict != 0

/-- A `FEED` of this session has taken the repeat branch. `SEND` leaves `ict` plus the queued values
equal to `apt`, every other `FEED` keeps the difference, and the repeat branch leaves `ict = apt = 1`
with a value queued (42 R104, R105, R107; notes/assumptions/22.md). -/
def hasRepeated (b : Block) : Bool := b.ict + b.fifo.length != b.apt

/-- `Repeating`: Streaming, and a `FEED` of this session has taken the repeat branch (42 R114). -/
def isRepeating (b : Block) : Bool := isStreaming b && hasRepeated b

/-- The number of a status (30 R71). -/
def statusNumber : Status → Nat
  | .ok => 0
  | .fault (.precondition _) => 1
  | .fault .noEntry => 2
  | .fault (.entryOverflow _) => 3
  | .fault (.bufferOverflow _) => 4
  | .fault (.illegalCommand _) => 5

end Sys2Proof.Machine
end

