-- ==== Sys2Proof/Machine/Operands.lean ====
section
/-! DEFINITION. The operand forms: the RC5 frame field, the desired polarity, widening
(spec/30_encoding.md R61, R62; spec/40_rc5_encoder.md R82; spec/20_memory.md R49). -/

namespace Sys2Proof.Machine

/-- `~command[6]` (30 R61). -/
def invertedBit6 (command : BitVec 7) : Bool := !command.getLsbD 6

/-- `command[5:0]` (30 R61). -/
def commandLow6 (command : BitVec 7) : BitVec 6 := command.extractLsb' 0 6

/-- The 13-bit value `d` of the frame field (30 R61). -/
def frameField (order : FieldOrder) (address : BitVec 5) (command : BitVec 7) (toggle : Bool) :
    BitVec 13 :=
  match order with
  | .doc =>
    BitVec.ofBool toggle ++ BitVec.ofBool (invertedBit6 command) ++ address ++ commandLow6 command
  | .rc5std =>
    BitVec.ofBool (invertedBit6 command) ++ BitVec.ofBool toggle ++ address ++ commandLow6 command

/-- The bits of `d` in the order they are sent, `d[12]` first (30 R62). -/
def frameBits (d : BitVec 13) : List Bool :=
  (List.range dataBits).map fun k => d.getLsbD (12 - k)

/-- The desired polarity of a bit: a 1 desires `on` (40 R82). -/
def desired (bit : Bool) : OnOff := if bit then .on else .off

/-- `zext_32` of an entry, the value that is queued (20 R49). -/
def widen (e : Entry) : Ticks := e.setWidth 32

end Sys2Proof.Machine
end

