-- ==== Sys2Proof/Machine/Ops.lean ====
section
/-! DEFINITION. The named operations over the Pulse Buffer, the queue and the response, and the
taking of a host fault (spec/20_memory.md, spec/60_exceptions.md R136). -/

namespace Sys2Proof.Machine

/-- What one entry reads as: the listed value, or 0, the reset contents (10 R32). -/
def Memory.read : Memory → Nat → Entry
  | [], _ => STOP
  | (k, v) :: rest, i => if i = k then v else Memory.read rest i

/-- The list without the entry at `i`. -/
def Memory.unlist : Memory → Nat → Memory
  | [], _ => []
  | (k, u) :: rest, i =>
    if k = i then Memory.unlist rest i else (k, u) :: Memory.unlist rest i

/-- The cell `(i, v)` put in front of the first listed index above `i`. -/
def Memory.list : Memory → Nat → Entry → Memory
  | [], i, v => [(i, v)]
  | (k, u) :: rest, i, v =>
    if i < k then (i, v) :: (k, u) :: rest else (k, u) :: Memory.list rest i v

/-- One entry written: the value an unlisted index reads as is not listed. -/
def Memory.write (m : Memory) (i : Nat) (v : Entry) : Memory :=
  if v = STOP then m.unlist i else (m.unlist i).list i v

/-- The canonical form with every index at least `lo`: indices strictly rising and below `CAP`, no
listed entry equal to what an unlisted index reads as. -/
def Memory.wfFrom (lo : Nat) : Memory → Bool
  | [] => true
  | (k, v) :: rest =>
    decide (lo ≤ k) && decide (k < CAP) && decide (v ≠ STOP) && Memory.wfFrom (k + 1) rest

/-- The canonical form of the Pulse Buffer. -/
def Memory.wf (m : Memory) : Bool := Memory.wfFrom 0 m

/-- `MemRead(i, 1)`: one entry, if the index exists (00 R8, 20 R44). -/
def memRead (m : Memory) (i : Nat) : Option Entry := if i < CAP then some (m.read i) else none

/-- `MemWrite(i, 1, v)`: one entry, if the index exists (00 R8, 20 R44). -/
def memWrite (m : Memory) (i : Nat) (v : Entry) : Option Memory :=
  if i < CAP then some (m.write i v) else none

/-- The least index from `i` on that holds a STOP, looking at `fuel` entries; `i + fuel` if none
does. -/
def firstStopFrom (m : Memory) : Nat → Nat → Nat
  | 0, i => i
  | fuel + 1, i => if m.read i = STOP then i else firstStopFrom m fuel (i + 1)

/-- `first_stop()` (20 R45): the least index that holds a STOP. `SEND` calls it with a STOP at
`CAP - 1`, so the last index needs no look. -/
def firstStop (m : Memory) : Nat := firstStopFrom m (CAP - 1) 0

/-- Entries `0` to `n - 1`, widened: the values `SEND` queues (42 R104). -/
def preload (m : Memory) (n : Nat) : List Ticks := (List.range n).map fun k => widen (m.read k)

/-- `FifoPush(w)`: needs room in the queue (20 R47). -/
def fifoPush (depth : Nat) (q : List Ticks) (w : Ticks) : Option (List Ticks) :=
  if q.length < depth then some (q ++ [w]) else none

/-- `FifoPop()`: the head and the rest, if there is one (20 R48). -/
def fifoPop : List Ticks → Option (Ticks × List Ticks)
  | [] => none
  | w :: rest => some (w, rest)

/-- The last segment marked truncated (43 R125). -/
def truncateLast : List Segment → List Segment
  | [] => []
  | [g] => [{ g with truncated := true }]
  | g :: rest => g :: truncateLast rest

/-- The response on the command port (30 R71). -/
def State.respond (s : State) (r : Response) : State := { s with response := some r }

/-- A command that returns `OK` and no value (30 R71). -/
def State.respondOk (s : State) : State := s.respond ⟨.ok, false⟩

/-- TAKING A HOST FAULT (60 R136): the response carries it; nothing is saved, no bit is set, no state
element changes. There is no return from it: the next command is executed normally (60 R146). -/
def State.takeHostFault (s : State) (f : HostFault) : State := s.respond ⟨.fault f, false⟩

/-- How one primitive ends (60 R136). -/
inductive Effect where
  /-- It has its effect. -/
  | done (s : State)
  /-- It raises a host fault and changes nothing. -/
  | raises (f : HostFault)
  /-- It reaches an entry that does not exist. -/
  | stops (f : Fault)
deriving DecidableEq, Repr

/-- A command that is one primitive, begun in `s`: its effect and the response. -/
def finish (s : State) : Effect → Host.Outcome State Fault Refusal
  | .done t => .next t.respondOk
  | .raises f => .next (s.takeHostFault f)
  | .stops f => .fault f

end Sys2Proof.Machine
end

