-- ==== Sys2Proof/Machine/Buffer.lean ====
section
/-! DEFINITION. The buffer primitives BUFRST, APPEND, ADD (spec/41_buffer_controller.md R90 to R92). -/

namespace Sys2Proof.Machine

/-- `BUFRST` (41 R90). -/
def bufrstPrim (s : State) : Effect :=
  .done { s with blk := { s.blk with aptr := 0, carrier := .off } }

/-- `APPEND duration` (41 R91). -/
def appendPrim (duration : Entry) (s : State) : Effect :=
  if s.blk.aptr ≥ CAP then .raises (.bufferOverflow s.blk.aptr)
  else
    match memWrite s.blk.arr s.blk.aptr duration with
    | none => .stops (.bufferIndex s.blk.aptr)
    | some arr =>
      .done { s with
        blk := { s.blk with arr := arr, aptr := s.blk.aptr + 1, carrier := s.blk.carrier.flip } }

/-- The exact sum of an entry and a signed operand (41 R92, R95). -/
def extendedEntry (e : Entry) (t : Int) : Int := (e.toNat : Int) + t

/-- `ADD t` (41 R92): the checks in the order of the pseudocode, then the extended entry. -/
def addPrim (t : Int) (s : State) : Effect :=
  if t ≤ 0 then .raises (.precondition t)
  else if s.blk.aptr = 0 then .raises .noEntry
  else
    match memRead s.blk.arr (s.blk.aptr - 1) with
    | none => .stops (.bufferIndex (s.blk.aptr - 1))
    | some e =>
      if extendedEntry e t > entryMax then .raises (.entryOverflow (extendedEntry e t))
      else
        match memWrite s.blk.arr (s.blk.aptr - 1) (BitVec.ofInt 16 (extendedEntry e t)) with
        | none => .stops (.bufferIndex (s.blk.aptr - 1))
        | some arr => .done { s with blk := { s.blk with arr := arr } }

/-- The meaning of `BUFRST`. -/
def execBufrst (s : State) : Host.Outcome State Fault Refusal := finish s (bufrstPrim s)

/-- The meaning of `APPEND`. -/
def execAppend (duration : Entry) (s : State) : Host.Outcome State Fault Refusal :=
  finish s (appendPrim duration s)

/-- The meaning of `ADD`. -/
def execAdd (duration : Int) (s : State) : Host.Outcome State Fault Refusal :=
  finish s (addPrim duration s)

end Sys2Proof.Machine
end

