-- ==== Sys2Proof/Machine/Peripheral.lean ====
section
/-! DEFINITION. The timing peripheral, the feed callback, RESET and the carrier output
(spec/43_carrier_and_timing_peripheral.md, spec/42_pulse_driver.md R105, spec/70 R161). -/

namespace Sys2Proof.Machine

/-- `raise FeedFault` inside `FEED`: the sticky bit, and nothing further (60 R137). -/
def raiseFeedFault (b : Block) : Block := { b with feedFault := true }

/-- The repeat branch of `FEED`: decrement `reps` unless infinite, queue entry 0, restart
(42 R105, R107). -/
def feedRepeat (depth : Nat) (b : Block) : Block :=
  let counted := { b with reps := if b.reps = 0#16 then b.reps else b.reps - 1#16 }
  match fifoPush depth b.fifo (widen (b.arr.read 0)) with
  | none => raiseFeedFault counted
  | some q => { counted with fifo := q, apt := 1, ict := 1 }

/-- The data branch of `FEED`: queue the entry, advance `apt` (42 R105). -/
def feedData (depth : Nat) (e : Entry) (b : Block) : Block :=
  match fifoPush depth b.fifo (widen e) with
  | none => raiseFeedFault b
  | some q => { b with fifo := q, apt := b.apt + 1 }

/-- The refill part of `FEED`: the fetch at `apt` and its three branches (42 R105). -/
def feedRefill (depth : Nat) (b : Block) : Block :=
  match memRead b.arr b.apt with
  | none => raiseFeedFault b
  | some e =>
    if e ≠ STOP then feedData depth e b
    else if b.reps ≠ 1#16 then feedRepeat depth b
    else b

/-- `FEED`, the interrupt callback (42 R105): the level from the parity of `ict`, the count, the
refill. -/
def feed (cfg : Cfg) (b : Block) : Block :=
  feedRefill cfg.fifoDepth { b with level := levelOfCount b.ict, ict := b.ict + 1 }

/-- The part of the dequeue step before the event: the value `w` is taken and held (43 R121). -/
def holdNext (w : Ticks) (rest : List Ticks) (b : Block) : Block :=
  { b with
    fifo := rest, cur := w, running := true, pin := pinOfPhase b.phase, phase := b.phase.flip }

/-- The segment recorded after `FEED` has run (10 R33, 43 R121). -/
def segmentOf (b : Block) (w : Ticks) : Segment := ⟨b.pin, b.level, w, false⟩

/-- The dequeue step, the event and its `FEED` in one step (43 R121, 60 R140). -/
def dequeueStep (s : State) : State :=
  match fifoPop s.blk.fifo with
  | none => s
  | some (w, rest) =>
    let b := feed s.cfg (holdNext w rest s.blk)
    { s with blk := b, trace := s.trace ++ [segmentOf b w] }

/-- The elapse step (43 R122). -/
def elapseStep (s : State) : State := { s with blk := { s.blk with running := false } }

/-- TMR's turn: its enabled step, or none when it is inactive, stalled or stuck (43 R121 to R123,
60 R143). -/
def tmrTurn (s : State) : State :=
  if dequeueEnabled s.blk then dequeueStep s
  else if elapseEnabled s.blk then elapseStep s
  else s

/-- The `FEED` of the dequeue step taken from this block finds the STOP with a repeat remaining: the
event after which the driver is `Repeating` (42 R107, R114; `isRepeating`). -/
def takesRepeat (b : Block) : Bool :=
  dequeueEnabled b && decide (b.apt < CAP) && b.arr.read b.apt == STOP && b.reps != 1#16

/-- `Activate()` (43 R124). -/
def activate (s : State) : State := { s with blk := { s.blk with active := true } }

/-- `Deactivate()` (43 R125); `cur` becomes unspecified, a free value (notes/assumptions/9.md). -/
def deactivate (s : State) : State :=
  { s with
    blk := { s.blk with
      active := false, fifo := [], running := false, phase := .X, pin := false,
      cur := Config.unspecifiedCur s.freeIx }
    trace := if s.blk.running then truncateLast s.trace else s.trace
    freeIx := s.freeIx + 1 }

/-- The `RESET` input (70 R160, R161): every element at its reset value, `cur` unspecified, the
observation starts again, `cfg` stays. -/
def resetTurn (s : State) : State :=
  { s with
    blk := Block.afterReset (Config.unspecifiedCur s.freeIx), trace := [], response := none,
    freeIx := s.freeIx + 1 }

/-- `DUTY_OFF_PCT` (00 R6). -/
def dutyOffPct (cfg : Cfg) : Nat := if cfg.activeLow then 100 else 0

/-- The carrier output: its frequency and the percentage of each period the pin is high (43 R130). -/
structure CarrierOutput where
  hz : Nat
  dutyPct : Nat
deriving DecidableEq, Repr

/-- The carrier output, a function of `level` and `cfg` alone (43 R130, R131). -/
def carrierOutput (cfg : Cfg) (level : OnOff) : CarrierOutput :=
  match level with
  | .on => ⟨cfg.carrierHz, cfg.dutyOnPct⟩
  | .off => ⟨cfg.carrierHz, dutyOffPct cfg⟩

/-- The carrier output of the machine (43 R130). -/
def State.output (s : State) : CarrierOutput := carrierOutput s.cfg s.blk.level

end Sys2Proof.Machine
end

