-- ==== Sys2Proof/Machine/Driver.lean ====
section
/-! DEFINITION. The driver commands SEND, BUSY, CANCEL (spec/42_pulse_driver.md R100 to R104, R108, R110). -/

namespace Sys2Proof.Machine

/-- Step 3 of `SEND`: a STOP in the last slot (42 R102). -/
def forceLastStop (m : Memory) : Memory := m.write (CAP - 1) STOP

/-- Whether step 4 of `SEND` pads: validation asked for and the first STOP at an odd index
(42 R103). -/
def padsAt (validate : Bool) (x : Nat) : Bool := validate && decide (x % 2 = 1)

/-- The buffer after step 4 of `SEND`, the first STOP found at `x` (42 R103). -/
def paddedBuffer (pad : Entry) (validate : Bool) (x : Nat) (m : Memory) : Memory :=
  if padsAt validate x then (m.write x pad).write (x + 1) STOP else m

/-- The live length after step 4 of `SEND` (42 R103). -/
def paddedLength (validate : Bool) (x : Nat) : Nat := if padsAt validate x then x + 1 else x

/-- Steps 2 to 7 of `SEND` on the deactivated block (42 R100 to R104). Every index is in range
(20 R44) and the queue is empty, so no check is made (notes/assumptions/14.md). -/
def loadSession (cfg : Cfg) (repeats : BitVec 16) (validate : Bool) (b : Block) : Block :=
  let forced := forceLastStop b.arr
  let x := firstStop forced
  let arr := paddedBuffer cfg.padSpaceUs validate x forced
  let icm := paddedLength validate x
  let n := min icm preloadMax
  { b with
    reps := repeats, arr := arr, icm := icm, fifo := b.fifo ++ preload arr n, apt := n, ict := 0,
    started := true }

/-- `SEND repeats, validate`: eight ordered steps in one (42 R100, 60 R142). -/
def sendPrim (repeats : BitVec 16) (validate : Bool) (s : State) : Effect :=
  let stopped := deactivate s
  .done (activate { stopped with blk := loadSession s.cfg repeats validate stopped.blk })

/-- `CANCEL` (42 R110). -/
def cancelPrim (s : State) : Effect := .done { s with blk := { s.blk with reps := 1#16 } }

/-- The meaning of `SEND`. -/
def execSend (repeats : BitVec 16) (validate : Bool) (s : State) :
    Host.Outcome State Fault Refusal :=
  finish s (sendPrim repeats validate s)

/-- The meaning of `BUSY`: no state changes, the response carries the value (42 R108). -/
def execBusy (s : State) : Host.Outcome State Fault Refusal :=
  .next (s.respond ⟨.ok, busyValue s.blk⟩)

/-- The meaning of `CANCEL`. -/
def execCancel (s : State) : Host.Outcome State Fault Refusal := finish s (cancelPrim s)

end Sys2Proof.Machine
end

