-- ==== Sys2Proof/Machine/Controller.lean ====
section
/-! DEFINITION. The composite commands ENCODE, TRIGGER, TRANSMIT as sequences of primitives, and how
TMR and RESET fall between them (spec/40_rc5_encoder.md, spec/41_buffer_controller.md R93, R94,
spec/60_exceptions.md R136, R141). -/

namespace Sys2Proof.Machine

/-- The primitives a composite is made of; each is one atomic step (60 R141). -/
inductive Primitive where
  | bufrst
  | append (duration : Entry)
  /-- The first primitive of a frame bit: `ADD T_HALF` when the desired polarity differs from
  `carrier`, else `APPEND T_HALF` (40 R80, R82, R83). -/
  | encodeBit (want : OnOff)
  | send (repeats : BitVec 16) (validate : Bool)
deriving DecidableEq, Repr

/-- The first primitive of a frame bit (40 R80). -/
def encodeBitPrim (want : OnOff) (s : State) : Effect :=
  if want ≠ s.blk.carrier then addPrim tHalf.toNat s else appendPrim tHalf s

/-- One primitive, one atomic step. -/
def perform : Primitive → State → Effect
  | .bufrst, s => bufrstPrim s
  | .append d, s => appendPrim d s
  | .encodeBit want, s => encodeBitPrim want s
  | .send r v, s => sendPrim r v s

/-- What falls between two primitives of a composite: TMR's turns, until the host moves again. The
second component is false when RESET came instead, and the command is lost
(60 R141, 70 R160; notes/assumptions/7.md, 8.md). -/
def interlude : List Turn → State → State × Bool
  | [], s => ({ s with agenda := [] }, true)
  | .host :: rest, s => ({ s with agenda := rest }, true)
  | .tmr :: rest, s => interlude rest (tmrTurn s)
  | .reset :: rest, s => ({ resetTurn s with agenda := rest }, false)

/-- A composite: its primitives in order, turns of other agents between them. It ends at the first
primitive that faults; what the earlier ones did stays (60 R136). -/
def runComposite : List Primitive → State → Host.Outcome State Fault Refusal
  | [], s => .next s.respondOk
  | [p], s => finish s (perform p s)
  | p :: q :: rest, s =>
    match perform p s with
    | .done t =>
      match interlude t.agenda t with
      | (u, true) => runComposite (q :: rest) u
      | (u, false) => .next u
    | .raises f => .next (s.takeHostFault f)
    | .stops f => .fault f

/-- The two primitives of one frame bit (40 R80, R82, R83). -/
def bitPrimitives (bit : Bool) : List Primitive := [.encodeBit (desired bit), .append tHalf]

/-- The 27 primitives of `ENCODE` (40 R80): the start symbol, then the bits of `d`. -/
def encodePrimitives (d : BitVec 13) : List Primitive :=
  .append tHalf :: (frameBits d).flatMap bitPrimitives

/-- The 2 primitives of `TRIGGER` (41 R93). -/
def triggerPrimitives : List Primitive := [.append STOP, .send 1#16 true]

/-- The 30 primitives of `TRANSMIT` (41 R94). -/
def transmitPrimitives (d : BitVec 13) : List Primitive :=
  .bufrst :: (encodePrimitives d ++ triggerPrimitives)

/-- The meaning of `ENCODE`. -/
def execEncode (address : BitVec 5) (command : BitVec 7) (toggle : Bool) (s : State) :
    Host.Outcome State Fault Refusal :=
  runComposite (encodePrimitives (frameField s.cfg.fieldOrder address command toggle)) s

/-- The meaning of `TRIGGER`. -/
def execTrigger (s : State) : Host.Outcome State Fault Refusal := runComposite triggerPrimitives s

/-- The meaning of `TRANSMIT`. -/
def execTransmit (address : BitVec 5) (command : BitVec 7) (toggle : Bool) (s : State) :
    Host.Outcome State Fault Refusal :=
  runComposite (transmitPrimitives (frameField s.cfg.fieldOrder address command toggle)) s

end Sys2Proof.Machine
end

