-- ==== Sys2Proof/Machine/Dispatch.lean ====
section
/-! DEFINITION. The meaning of every command, one arm per row of spec/opcode_table.json. -/

namespace Sys2Proof.Machine

def exec (i : Instr) (s : State) : Host.Outcome State Fault Refusal :=
  match i with
  | .transmit a c g => Sys2Proof.Machine.execTransmit a c g s
  | .encode a c g => Sys2Proof.Machine.execEncode a c g s
  | .bufrst => Sys2Proof.Machine.execBufrst s
  | .append d => Sys2Proof.Machine.execAppend d s
  | .add t => Sys2Proof.Machine.execAdd t s
  | .trigger => Sys2Proof.Machine.execTrigger s
  | .send r v => Sys2Proof.Machine.execSend r v s
  | .busy => Sys2Proof.Machine.execBusy s
  | .cancel => Sys2Proof.Machine.execCancel s

end Sys2Proof.Machine
end

