-- ==== Sys2Proof/Machine/Port.lean ====
section
/-! DEFINITION. The command port (spec/30_encoding.md R64, R70) and the turn of each agent. -/

namespace Sys2Proof.Machine

/-- One command word accepted from the host: a command runs, a word that selects none raises
`IllegalCommandFault` and changes nothing (30 R64, R70). -/
def acceptWord (w : Command) (s : State) : Host.Outcome State Fault Refusal :=
  match decode w with
  | .ok i => exec i s
  | .error _ => .next (s.takeHostFault (.illegalCommand w))

/-- The host's turn: the next word it has to issue, if any (notes/assumptions/6.md, 16.md). -/
def hostTurn (s : State) : Host.Outcome State Fault Refusal :=
  match s.port with
  | [] => .next s
  | w :: rest => acceptWord w { s with port := rest }

/-- With no agenda the host moves as long as it has a word to issue, then TMR (notes/assumptions/5.md). -/
def defaultTurn (s : State) : Host.Outcome State Fault Refusal :=
  match s.port with
  | [] => .next (tmrTurn s)
  | w :: rest => acceptWord w { s with port := rest }

/-- The turn of the agent the agenda names (60 R143). -/
def nextTurn (s : State) : Host.Outcome State Fault Refusal :=
  match s.agenda with
  | [] => defaultTurn s
  | .host :: rest => hostTurn { s with agenda := rest }
  | .tmr :: rest => .next (tmrTurn { s with agenda := rest })
  | .reset :: rest => .next (resetTurn { s with agenda := rest })

/-- The state in which the host is about to issue `w` and it is the host's turn. -/
def offerWord (w : Command) (s : State) : State :=
  { s with port := w :: s.port, agenda := .host :: s.agenda }

end Sys2Proof.Machine
end

