-- ==== Sys2Proof/Safety.lean ====
section
/-! DEFINITION. What claims about the engine are stated in: the invariant of every run, the atomic
steps of the spec, the observation, and the RC5 coding as the spec describes it apart from the encoder
(spec/10_state.md R36, spec/20_memory.md R50, spec/40_rc5_encoder.md R84 to R88). -/

namespace Sys2Proof.Machine

/-- What holds in every state a run reaches (10 R12, R15, R17, R20, R23, R33, R36; 42 R112;
43 R127). -/
structure Inv (s : State) : Prop where
  /-- The configuration is a legal one (10 R26). -/
  cfgLegal : s.cfg.legal
  /-- The Pulse Buffer is in its canonical form. -/
  arrWf : s.blk.arr.wf = true
  /-- 10 R12. -/
  aptrRange : s.blk.aptr ≤ CAP
  /-- 10 R17. -/
  aptRange : s.blk.apt ≤ CAP
  /-- 10 R15, R36 (e). -/
  icmRange : s.blk.icm < CAP
  /-- 10 R36 (b), 43 R127. -/
  fifoBound : s.blk.fifo.length ≤ preloadMax
  /-- The events since the count was set are paid for by the queue and the advances of `apt`
  (42 R112); with `aptRange` it bounds `ict` by 33. -/
  ictBound : s.blk.ict + s.blk.fifo.length ≤ s.blk.apt + preloadMax
  /-- What was fetched since the count was set has been played or is queued: `FEED` advances `apt` by
  what it queues, and a dequeue counts (42 R104, R105, R107). -/
  aptBound : s.blk.apt ≤ s.blk.ict + s.blk.fifo.length
  /-- Before the first dequeue of a session the queue holds what `SEND` preloaded (42 R104). -/
  freshQueue : s.blk.ict = 0 → s.blk.apt = s.blk.fifo.length
  /-- A value is held only after a dequeue, whose `FEED` counted it (42 R105, 43 R121). -/
  heldCounted : s.blk.running = true → s.blk.ict ≠ 0
  /-- 10 R36 (a). -/
  carrierParity : s.blk.carrier = .on ↔ s.blk.aptr % 2 = 1
  /-- The pin is asserted exactly from an X dequeue to the next Y dequeue (10 R23). -/
  pinPhase : s.blk.pin = true ↔ s.blk.phase = .Y
  /-- 10 R36 (f). -/
  inactiveEmpty : s.blk.active = false →
    s.blk.fifo = [] ∧ s.blk.running = false ∧ s.blk.pin = false ∧ s.blk.phase = .X
  /-- A session has started whenever the peripheral is active (10 R18, R19). -/
  activeStarted : s.blk.active = true → s.blk.started = true
  /-- A queued value is a widened entry (20 R49). -/
  fifoWidened : ∀ w ∈ s.blk.fifo, w.toNat ≤ entryMax
  /-- The value being held is the last segment, under the present pin and level (10 R33). -/
  heldSegment : s.blk.running = true →
    s.trace.getLast? = some ⟨s.blk.pin, s.blk.level, s.blk.cur, false⟩

/-- No `RESET` comes among these turns. -/
abbrev noReset (l : List Turn) : Prop := ∀ τ ∈ l, τ ≠ Turn.reset

/-- Only the host moves. -/
abbrev hostOnly (l : List Turn) : Prop := ∀ τ ∈ l, τ = Turn.host

/-- Nothing but TMR can move: the host has no word to issue and no turn is laid down. -/
abbrev unattended (s : State) : Prop := s.port = [] ∧ s.agenda = []

/-- The state without its environment and the last response. -/
def State.quiet (s : State) : State := { s with response := none, port := [], agenda := [] }

/-- The state without the observation (10 R33). -/
def State.unobserved (s : State) : State := { s with trace := [], response := none }

/-- An outcome with its state changed. -/
def mapNext (f : State → State) : Host.Outcome State Fault Refusal → Host.Outcome State Fault Refusal
  | .next s => .next (f s)
  | .fault r => .fault r
  | .refused r => .refused r

/-- The atomic steps of 20 R50 that change the state: a host primitive, an enabled TMR step, RESET. -/
inductive AtomicStep : State → State → Prop where
  | primitive {s t : State} (p : Primitive) (h : perform p s = .done t) : AtomicStep s t
  | add {s t : State} (operand : Int) (h : addPrim operand s = .done t) : AtomicStep s t
  | cancel {s t : State} (h : cancelPrim s = .done t) : AtomicStep s t
  | dequeue {s : State} (h : dequeueEnabled s.blk = true) : AtomicStep s (dequeueStep s)
  | elapse {s : State} (h : elapseEnabled s.blk = true) : AtomicStep s (elapseStep s)
  | reset {s : State} : AtomicStep s (resetTurn s)

/-- `n` entries of the buffer from index `lo` on. -/
def entriesFrom (m : Memory) (lo n : Nat) : List Entry := (List.range n).map fun k => m.read (lo + k)

/-- The signal of a list of entries in half bits, marks and spaces in turn (10 R11, 40 R88). -/
def halfBits : OnOff → List Entry → List OnOff
  | _, [] => []
  | p, e :: rest => List.replicate (e.toNat / tHalf.toNat) p ++ halfBits p.flip rest

/-- The biphase signal of a frame as 40 R88 words it: the start mark, then each bit as the opposite
polarity and its own. -/
def biphase (d : BitVec 13) : List OnOff :=
  .on :: (frameBits d).flatMap fun bit => [desired (!bit), desired bit]

/-- The merges of a list of bits sent after `prev`: how often a bit differs from the bit before it
(40 R84, R86). -/
def mergesAfter : Bool → List Bool → Nat
  | _, [] => 0
  | prev, bit :: rest => (if bit = prev then 0 else 1) + mergesAfter bit rest

/-- The merges of a frame; the start symbol counts as a 1 (40 R84). -/
def merges (d : BitVec 13) : Nat := mergesAfter true (frameBits d)

/-- The entries of the bits sent after `prev`, the last entry so far being `last` (40 R84): a bit that
differs lengthens it and adds one entry, a bit that matches adds two. -/
def entriesAfter : Bool → Entry → List Bool → List Entry
  | _, last, [] => [last]
  | prev, last, bit :: rest =>
    if bit = prev then last :: tHalf :: entriesAfter bit tHalf rest
    else (last + tHalf) :: entriesAfter bit tHalf rest

/-- The entries of a frame. -/
def frameEntries (d : BitVec 13) : List Entry := entriesAfter true tHalf (frameBits d)

/-- The live entries `TRANSMIT` plays: the frame, and the padding space when it ends on a mark
(42 R103). -/
def playedEntries (pad : Entry) (d : BitVec 13) : List Entry :=
  if (frameEntries d).length % 2 = 1 then frameEntries d ++ [pad] else frameEntries d

/-- `ENCODE` up to and including the first `k` bits of the frame (40 R84). -/
def encodePart (d : BitVec 13) (k : Nat) : List Primitive :=
  .append tHalf :: ((frameBits d).take k).flatMap bitPrimitives

/-- The command begins a session (10 R31: `SEND` and the composites that end in it). -/
def beginsSession : Instr → Bool
  | .transmit _ _ _ => true
  | .encode _ _ _ => false
  | .bufrst => false
  | .append _ => false
  | .add _ => false
  | .trigger => true
  | .send _ _ => true
  | .busy => false
  | .cancel => false

/-- The command writes the Pulse Buffer's pointer and tracked polarity (10 R31: `BUFRST`, `APPEND` and
the composites built from them). -/
def movesPointer : Instr → Bool
  | .transmit _ _ _ => true
  | .encode _ _ _ => true
  | .bufrst => true
  | .append _ => true
  | .add _ => false
  | .trigger => true
  | .send _ _ => false
  | .busy => false
  | .cancel => false

/-- The response of a command that completes without a value (30 R71). -/
abbrev okResponse : Option Response := some ⟨.ok, false⟩

/-- The response that reports a host fault (60 R136). -/
abbrev faultResponse (f : HostFault) : Option Response := some ⟨.fault f, false⟩

/-- The session a `SEND` leaves when it finds `base` in the buffer, `x` being the first STOP of `base`
(42 R100 to R104): everything it writes but `reps`. -/
def sessionOf (pad : Entry) (validate : Bool) (base : Nat → Entry) (x : Nat) (b : Block) : Prop :=
  let pads := validate = true ∧ x % 2 = 1
  x ≤ CAP - 1 ∧ base x = STOP ∧ (∀ j < x, base j ≠ STOP) ∧
  (pads → b.icm = x + 1) ∧ (¬ pads → b.icm = x) ∧
  (∀ i, (pads ∧ i = x → b.arr.read i = pad) ∧ (pads ∧ i = x + 1 → b.arr.read i = STOP) ∧
    (¬ (pads ∧ (i = x ∨ i = x + 1)) → b.arr.read i = base i)) ∧
  b.fifo = (entriesFrom b.arr 0 (min b.icm preloadMax)).map (fun e => e.setWidth 32) ∧
  b.apt = min b.icm preloadMax ∧ b.ict = 0 ∧ b.started = true ∧ b.active = true ∧
  b.running = false ∧ b.phase = .X ∧ b.pin = false

/-- `ict` on entry to the `FEED` for entry `j` of frame `f` of an undisturbed `SEND repeats`, by the
table of 42 R111; the frames are numbered from 0 here. -/
def countOnEntry (icm : Nat) (repeats : BitVec 16) (f j : Nat) : Nat :=
  let n := min icm preloadMax
  if icm - n < j ∧ (repeats = 0#16 ∨ f + 1 < repeats.toNat) then j - (icm - n)
  else if f = 0 then j else n + j

/-- Pin and level of entry `j` of a frame: a mark when `j` is even (10 R11). -/
def markOrSpace (j : Nat) : Bool × OnOff := if j % 2 = 0 then (true, .on) else (false, .off)

/-- The buffer holds `icm` live entries and then a STOP, as `SEND` found it, and `FEED` is within them. -/
abbrev inLiveEntries (b : Block) : Prop :=
  b.apt ≤ b.icm ∧ b.icm < CAP ∧ b.arr.read b.icm = STOP ∧ ∀ k < b.icm, b.arr.read k ≠ STOP

end Sys2Proof.Machine
end

