-- ==== Sys2Proof/Certificates/Slice0/Obligations.lean ====
section
/-! DEFINITION. The statements for the provers. -/

open Sys2Proof Sys2Proof.Machine

/-! ### The command port, the encoding -/

/-- When the word next on the port decodes to `i` and the host moves (its turn is laid down, or no turn
is), the step is `i`'s meaning on the state with the word taken and the turn spent; a table row's word
placed by `withFetchWord` runs on the very state it was placed in. -/
def Obligations.StepRunsDecodedCommand : Prop :=
  ∀ (s : State) (w : Command) (rest : List Command) (turns : List Turn) (i : Instr),
    decode w = .ok i → s.port = w :: rest →
      (s.agenda = .host :: turns → step s = exec i { s with port := rest, agenda := turns }) ∧
      (s.agenda = [] → step s = exec i { s with port := rest }) ∧
      step (s.withFetchWord 32 w.toNat) = exec i s

/-- 30 R70: a word whose opcode is reserved, or whose opcode is defined and which has a 1 in a
must-be-zero bit, raises `IllegalCommandFault(word)` and changes no state. -/
def Obligations.IllegalWordChangesNothing : Prop :=
  ∀ (s : State) (w : Command) (rest : List Command) (turns : List Turn),
    ((opcode w).toNat = 0 ∨ 10 ≤ (opcode w).toNat ∨
      ∃ i : Instr, opcode w = opcode i.row.pattern ∧ w &&& i.row.mask ≠ i.row.pattern) →
    s.port = w :: rest → s.agenda = .host :: turns →
      step s = .next { s with
        port := rest, agenda := turns, response := faultResponse (.illegalCommand w) }

/-- Words of every command written out from the patterns of 30 R66, and the volume commands of 41 R96. -/
def Obligations.WrittenWordsDecode : Prop :=
  decode 0b00010000000000000001111111111111#32 = .ok (.transmit 31 127 true) ∧
  decode 0b00100000000000000001001010110101#32 = .ok (.encode 5 53 true) ∧
  decode 0b00110000000000000000000000000000#32 = .ok .bufrst ∧
  decode 0b01000000000000000000000111110100#32 = .ok (.append 500) ∧
  decode 0b01010000000000011111111111111111#32 = .ok (.add (-1)) ∧
  decode 0b01100000000000000000000000000000#32 = .ok .trigger ∧
  decode 0b01110000000000010000000000000011#32 = .ok (.send 3 true) ∧
  decode 0b10000000000000000000000000000000#32 = .ok .busy ∧
  decode 0b10010000000000000000000000000000#32 = .ok .cancel ∧
  decode 0b00010000000000000000100000010000#32 = .ok .volUp ∧
  decode 0b00010000000000000000100000010001#32 = .ok .volDn

/-- Decoding the word of a well-formed command gives the command back. -/
def Obligations.DecodeOfEncode : Prop :=
  ∀ i : Instr, i.wf = true → decode (encode i) = .ok i

/-- Every word that decodes is the word of its command, and the command is well formed. -/
def Obligations.EncodeOfDecode : Prop :=
  ∀ (w : Command) (i : Instr), decode w = .ok i → encode i = w ∧ i.wf = true

/-- No word selects two rows of the table (30 R66). -/
def Obligations.RowsAreDisjoint : Prop :=
  ∀ (i j : Instr) (w : Command),
    i.row.selects w = true → j.row.selects w = true → i.row = j.row

/-- 30 R61: each bit of the frame field `d`, in both field orders. -/
def Obligations.FrameFieldBits : Prop :=
  ∀ (a : BitVec 5) (c : BitVec 7) (g : Bool) (order : FieldOrder),
    let d := frameField order a c g
    (order = .doc → d.getLsbD 12 = g ∧ d.getLsbD 11 = !c.getLsbD 6) ∧
    (order = .rc5std → d.getLsbD 12 = !c.getLsbD 6 ∧ d.getLsbD 11 = g) ∧
    (∀ k < 5, d.getLsbD (6 + k) = a.getLsbD k) ∧ (∀ k < 6, d.getLsbD k = c.getLsbD k)

/-- The numbers of the statuses (30 R71). -/
def Obligations.StatusNumbering : Prop :=
  statusNumber .ok = 0 ∧ ∀ (t s : Int) (n : Nat) (w : Command),
    statusNumber (.fault (.precondition t)) = 1 ∧ statusNumber (.fault .noEntry) = 2 ∧
    statusNumber (.fault (.entryOverflow s)) = 3 ∧
    statusNumber (.fault (.bufferOverflow n)) = 4 ∧
    statusNumber (.fault (.illegalCommand w)) = 5

/-! ### Reset -/

/-- The values of 10 R32 right after reset; `cur` is unspecified there and not mentioned here. -/
def Obligations.ResetStateValues : Prop :=
  let b := State.reset.blk
  (∀ i, b.arr.read i = 0#16) ∧ b.aptr = 0 ∧ b.carrier = .off ∧ b.reps = 0#16 ∧ b.icm = 0 ∧
  b.ict = 0 ∧ b.apt = 0 ∧ b.started = false ∧ b.active = false ∧ b.fifo = [] ∧ b.phase = .X ∧
  b.running = false ∧ b.pin = false ∧ b.level = .off ∧ b.feedFault = false ∧
  State.reset.trace = []

/-- 70 R161: `RESET` in any state gives every element its reset value (`cur` unspecified), empties the
trace and leaves `cfg`. That the response is cleared and the port kept is the model's choice
(notes/assumptions/15.md). -/
def Obligations.ResetInputFromAnyState : Prop :=
  ∀ (s : State) (turns : List Turn), s.agenda = .reset :: turns →
    ∃ t, step s = .next t ∧ t.blk = { State.reset.blk with cur := t.blk.cur } ∧ t.trace = [] ∧
      t.cfg = s.cfg ∧ t.port = s.port ∧ t.agenda = turns ∧ t.response = none

/-! ### The invariant of every run -/

/-- The invariant holds right after reset. -/
def Obligations.ResetMeetsInvariant : Prop := Inv State.reset

/-- Every step keeps the invariant. -/
def Obligations.StepKeepsInvariant : Prop :=
  ∀ s t : State, Inv s → step s = .next t → Inv t

/-- From a state with the invariant a step always answers a next state: the machine never stops. -/
def Obligations.StepNeverStops : Prop := ∀ s : State, Inv s → ∃ t, step s = .next t

/-- No step changes the configuration (70 R162). -/
def Obligations.ConfigurationIsFixed : Prop :=
  ∀ s t : State, step s = .next t → t.cfg = s.cfg

/-! ### The buffer commands -/

/-- 41 R90: `BUFRST` sets `aptr` to 0 and `carrier` to off, and changes nothing else. -/
def Obligations.BufrstResult : Prop :=
  ∀ s : State, exec .bufrst s = .next { s with
    blk := { s.blk with aptr := 0, carrier := .off }, response := okResponse }

/-- 41 R91: `APPEND` writes at `aptr`, advances and flips; every other entry, every other element is
as before. With `aptr` at `CAP` (or beyond) it raises `BufferOverflowFault` and changes nothing. -/
def Obligations.AppendResult : Prop :=
  ∀ (s : State) (d : Entry),
    (s.blk.aptr < CAP → ∃ t, exec (.append d) s = .next t ∧
      (∀ i, t.blk.arr.read i = if i = s.blk.aptr then d else s.blk.arr.read i) ∧
      t = { s with
        blk := { s.blk with
          arr := t.blk.arr, aptr := s.blk.aptr + 1,
          carrier := if s.blk.carrier = .on then .off else .on }
        response := okResponse }) ∧
    (CAP ≤ s.blk.aptr →
      exec (.append d) s = .next { s with response := faultResponse (.bufferOverflow s.blk.aptr) })

/-- 41 R92: `ADD` in the order of its checks; when it succeeds the last appended entry alone changes. -/
def Obligations.AddResult : Prop :=
  ∀ (s : State) (x : Int), s.blk.aptr ≤ CAP →
    let sum : Int := (s.blk.arr.read (s.blk.aptr - 1)).toNat + x
    (x ≤ 0 → exec (.add x) s = .next { s with response := faultResponse (.precondition x) }) ∧
    (0 < x → s.blk.aptr = 0 → exec (.add x) s = .next { s with response := faultResponse .noEntry }) ∧
    (0 < x → 0 < s.blk.aptr → 65535 < sum →
      exec (.add x) s = .next { s with response := faultResponse (.entryOverflow sum) }) ∧
    (0 < x → 0 < s.blk.aptr → sum ≤ 65535 → ∃ t, exec (.add x) s = .next t ∧
      ((t.blk.arr.read (s.blk.aptr - 1)).toNat : Int) = sum ∧
      (∀ i, i ≠ s.blk.aptr - 1 → t.blk.arr.read i = s.blk.arr.read i) ∧
      t = { s with blk := { s.blk with arr := t.blk.arr }, response := okResponse })

/-- `TRIGGER` (41 R93): the STOP appended at `aptr`, then the session of `SEND 1, 1`, whatever TMR
does between the two; with the buffer full it faults and sends nothing. -/
def Obligations.TriggerResult : Prop :=
  ∀ s : State,
    (s.blk.aptr < CAP → noReset s.agenda → ∃ t x, exec .trigger s = .next t ∧
      t.response = okResponse ∧ t.blk.aptr = s.blk.aptr + 1 ∧
      t.blk.carrier = s.blk.carrier.flip ∧ t.blk.reps = 1#16 ∧
      sessionOf s.cfg.padSpaceUs true
        (fun i => if i = s.blk.aptr ∨ i = CAP - 1 then STOP else s.blk.arr.read i) x t.blk ∧
      (hostOnly s.agenda → t.blk.level = s.blk.level ∧ t.blk.feedFault = s.blk.feedFault)) ∧
    (CAP ≤ s.blk.aptr → exec .trigger s =
      .next { s with response := faultResponse (.bufferOverflow s.blk.aptr) })

/-! ### The encoder -/

/-- `ENCODE` from an empty buffer completes, whatever TMR does meanwhile; the signal of what it wrote is
the biphase coding of the frame (40 R88), every entry is 889 or 1778 (40 R87), and the entries sum to
24003 (40 R85). -/
def Obligations.EncodeWritesBiphaseSignal : Prop :=
  ∀ (s : State) (a : BitVec 5) (c : BitVec 7) (g : Bool),
    s.blk.aptr = 0 → s.blk.carrier = .off → noReset s.agenda →
    ∃ t, exec (.encode a c g) s = .next t ∧ t.response = okResponse ∧
      let written := entriesFrom t.blk.arr 0 t.blk.aptr
      halfBits .on written = biphase (frameField s.cfg.fieldOrder a c g) ∧
      (∀ e ∈ written, e = 889#16 ∨ e = 1778#16) ∧
      (written.map BitVec.toNat).sum = 24003

/-- `ENCODE` from an empty buffer leaves `aptr = 27 - m`, `m` the merges (40 R86), odd and with
`carrier` on exactly when `command[0]` is 1 (40 R89); the entries at and after `aptr` are untouched, and
with no TMR turn between its primitives nothing but the buffer, its pointer and its polarity changes. -/
def Obligations.EncodeLengthAndFrame : Prop :=
  ∀ (s : State) (a : BitVec 5) (c : BitVec 7) (g : Bool),
    s.blk.aptr = 0 → s.blk.carrier = .off → noReset s.agenda →
    ∃ t, exec (.encode a c g) s = .next t ∧
      let d := frameField s.cfg.fieldOrder a c g
      t.blk.aptr = 27 - merges d ∧ merges d ≤ 13 ∧
      (t.blk.aptr % 2 = 1 ↔ c.getLsbD 0 = true) ∧
      (t.blk.carrier = .on ↔ c.getLsbD 0 = true) ∧
      entriesFrom t.blk.arr 0 t.blk.aptr = frameEntries d ∧
      (∀ i, t.blk.aptr ≤ i → t.blk.arr.read i = s.blk.arr.read i) ∧
      (hostOnly s.agenda → t = { s with
        blk := { s.blk with
          arr := t.blk.arr, aptr := t.blk.aptr, carrier := t.blk.carrier }
        agenda := t.agenda, response := okResponse })

/-- 40 R86: no frame has more than 13 merges; none is reached by the all-ones frame only, 13 only by
the alternating frame 0101010101010. -/
def Obligations.MergesExtremes : Prop :=
  ∀ d : BitVec 13, merges d ≤ 13 ∧ (merges d = 0 ↔ d = 0b1111111111111#13) ∧
    (merges d = 13 ↔ d = 0b0101010101010#13)

/-- 40 R84: after the start symbol and the first `k` bits, `carrier` is the polarity of the last bit
sent, the start symbol counting as a 1. -/
def Obligations.EncodePolarityFollowsBits : Prop :=
  ∀ (s : State) (d : BitVec 13) (k : Nat), k ≤ 13 →
    s.blk.aptr = 0 → s.blk.carrier = .off → noReset s.agenda →
    ∃ t, runComposite (encodePart d k) s = .next t ∧
      (t.blk.carrier = .on ↔ k = 0 ∨ d.getLsbD (13 - k) = true)

/-- `ENCODE` from any pointer: it completes, or it stops at a full buffer with
`BufferOverflowFault(CAP)` and what it wrote stays (40 R80, 60 R136); earlier entries are untouched. -/
def Obligations.EncodeFromAnyPointer : Prop :=
  ∀ (s : State) (a : BitVec 5) (c : BitVec 7) (g : Bool),
    s.blk.aptr ≤ CAP → noReset s.agenda →
    ∃ t, exec (.encode a c g) s = .next t ∧
      (∀ i < s.blk.aptr, t.blk.arr.read i = s.blk.arr.read i) ∧
      (t.response = okResponse ∨
        (t.response = faultResponse (.bufferOverflow CAP) ∧ t.blk.aptr = CAP))

/-- The primitives of the composites are 27, 2 and 30 (60 R141). -/
def Obligations.CompositeLengths : Prop :=
  triggerPrimitives.length = 2 ∧ ∀ d : BitVec 13,
    (encodePrimitives d).length = 27 ∧ (transmitPrimitives d).length = 30

/-! ### TRANSMIT and the interleaving -/

/-- `TRANSMIT` (41 R94) from any state, under every interleaving of TMR's turns with its primitives:
the frame and its padding are in the buffer, STOP after them, and the session that plays them once is
set up. -/
def Obligations.TransmitSession : Prop :=
  ∀ (s : State) (a : BitVec 5) (c : BitVec 7) (g : Bool), noReset s.agenda →
    ∃ t, exec (.transmit a c g) s = .next t ∧ t.response = okResponse ∧
      let d := frameField s.cfg.fieldOrder a c g
      let played := playedEntries s.cfg.padSpaceUs d
      t.blk.aptr = (frameEntries d).length + 1 ∧
      (t.blk.carrier = .on ↔ (frameEntries d).length % 2 = 0) ∧
      t.blk.reps = 1#16 ∧ t.blk.icm = played.length ∧ t.blk.ict = 0 ∧ t.blk.apt = 4 ∧
      t.blk.started = true ∧ t.blk.active = true ∧
      t.blk.fifo = (played.take 4).map (fun e => e.setWidth 32) ∧
      t.blk.phase = .X ∧ t.blk.running = false ∧ t.blk.pin = false ∧
      entriesFrom t.blk.arr 0 played.length = played ∧
      (∀ i, played.length ≤ i → t.blk.arr.read i =
        if i = played.length ∨ i = CAP - 1 then STOP else s.blk.arr.read i) ∧
      (hostOnly s.agenda → t.blk.level = s.blk.level ∧ t.blk.feedFault = s.blk.feedFault)

/-- Between two primitives of a composite any number of TMR's turns may be taken (60 R141). -/
def Obligations.CompositeAdmitsTmrTurns : Prop :=
  ∀ (p q : Primitive) (rest : List Primitive) (s t : State) (k : Nat) (turns : List Turn),
    perform p s = .done t → s.agenda = List.replicate k .tmr ++ .host :: turns →
      runComposite (p :: q :: rest) s =
        runComposite (q :: rest) { (tmrTurn^[k] t) with agenda := turns }

/-- `RESET` between two primitives: the block is at its reset values and the rest of the command is
lost. That the command is lost is the model's reading (notes/assumptions/8.md). -/
def Obligations.ResetAbandonsComposite : Prop :=
  ∀ (p q : Primitive) (rest : List Primitive) (s t : State) (turns : List Turn),
    perform p s = .done t → s.agenda = .reset :: turns →
      runComposite (p :: q :: rest) s = .next { resetTurn t with agenda := turns }

/-- Every step of the machine is a finite sequence of the spec's atomic steps (20 R50, 60 R141): host
primitives, enabled TMR steps, RESET. -/
def Obligations.StepIsAtomicSteps : Prop :=
  ∀ s t : State, step s = .next t → Relation.ReflTransGen AtomicStep s.quiet t.quiet

/-! ### SEND, BUSY, CANCEL -/

/-- `SEND` (42 R100 to R104, 43 R124, R125): the session it sets up, the last segment truncated when a
value was being held, and everything it does not write. -/
def Obligations.SendSession : Prop :=
  ∀ (s : State) (r : BitVec 16) (v : Bool), ∃ t x, exec (.send r v) s = .next t ∧
    t.blk.reps = r ∧
    sessionOf s.cfg.padSpaceUs v (fun i => if i = CAP - 1 then STOP else s.blk.arr.read i) x t.blk ∧
    t.blk.aptr = s.blk.aptr ∧ t.blk.carrier = s.blk.carrier ∧ t.blk.level = s.blk.level ∧
    t.blk.feedFault = s.blk.feedFault ∧ t.cfg = s.cfg ∧ t.port = s.port ∧ t.agenda = s.agenda ∧
    t.response = okResponse ∧
    (s.blk.running = false → t.trace = s.trace) ∧
    (s.blk.running = true → ∀ before g, s.trace = before ++ [g] →
      t.trace = before ++ [{ g with truncated := true }])

/-- After `SEND` the last slot is a STOP, the live length is at most 28, it is the index of the first
STOP under a legal configuration, and with `validate = 1` it is even (10 R36, 20 R46). -/
def Obligations.SendLeavesEvenLength : Prop :=
  ∀ (s t : State) (r : BitVec 16) (v : Bool), s.cfg.legal → exec (.send r v) s = .next t →
    t.blk.arr.read (CAP - 1) = STOP ∧ t.blk.icm ≤ 28 ∧ t.blk.arr.read t.blk.icm = STOP ∧
    (∀ k < t.blk.icm, t.blk.arr.read k ≠ STOP) ∧ (v = true → t.blk.icm % 2 = 0)

/-- 42 R108: `BUSY` returns `started and ict < icm` and changes no state. -/
def Obligations.BusyResult : Prop :=
  ∀ s : State, exec .busy s = .next { s with
    response := some ⟨.ok, decide (s.blk.started = true ∧ s.blk.ict < s.blk.icm)⟩ }

/-- 42 R110: `CANCEL` sets `reps` to 1 and changes nothing else. -/
def Obligations.CancelResult : Prop :=
  ∀ s : State, exec .cancel s = .next { s with
    blk := { s.blk with reps := 1#16 }, response := okResponse }

/-- 20 R51: at a STOP with a value to dequeue, `CANCEL` before `FEED` ends playback; `FEED` before
`CANCEL` queues one more frame, whose `reps` is then 1. -/
def Obligations.CancelAgainstFeed : Prop :=
  ∀ (s : State) (w : Ticks) (q : List Ticks),
    s.blk.active = true → s.blk.running = false → s.blk.feedFault = false → s.blk.fifo = w :: q →
    s.blk.apt < CAP → s.blk.arr.read s.blk.apt = STOP → q.length < s.cfg.fifoDepth →
    s.blk.reps ≠ 1#16 → s.blk.reps ≠ 0#16 →
    (∃ t, cancelPrim s = .done t ∧ (tmrTurn t).blk.reps = 1#16 ∧ (tmrTurn t).blk.fifo = q ∧
      (tmrTurn t).blk.apt = s.blk.apt) ∧
    (tmrTurn s).blk.reps = s.blk.reps - 1#16 ∧
    ∃ t, cancelPrim (tmrTurn s) = .done t ∧ t.blk.reps = 1#16 ∧ t.blk.apt = 1 ∧
      t.blk.fifo = q ++ [(s.blk.arr.read 0).setWidth 32]

/-! ### The timing peripheral and FEED -/

/-- The dequeue step and its `FEED` (43 R121, 42 R105, R107, 60 R137): what is taken and held, the
level, the recorded segment, what stays, and the branches of `FEED`. -/
def Obligations.DequeueRunsFeed : Prop :=
  ∀ (s : State) (turns : List Turn) (w : Ticks) (q : List Ticks),
    s.agenda = .tmr :: turns → s.blk.active = true → s.blk.running = false →
    s.blk.feedFault = false → s.blk.fifo = w :: q →
    ∃ t, step s = .next t ∧
      t.blk.cur = w ∧ t.blk.running = true ∧ (t.blk.pin = true ↔ s.blk.phase = .X) ∧
      (t.blk.phase = .Y ↔ s.blk.phase = .X) ∧ (t.blk.level = .on ↔ s.blk.ict % 2 = 0) ∧
      t.trace = s.trace ++ [⟨t.blk.pin, t.blk.level, w, false⟩] ∧
      t.blk.arr = s.blk.arr ∧ t.blk.aptr = s.blk.aptr ∧ t.blk.carrier = s.blk.carrier ∧
      t.blk.icm = s.blk.icm ∧ t.blk.started = s.blk.started ∧ t.blk.active = true ∧
      t.cfg = s.cfg ∧ t.port = s.port ∧ t.agenda = turns ∧ t.response = s.response ∧
      let e := s.blk.arr.read s.blk.apt
      let room := q.length < s.cfg.fifoDepth
      (CAP ≤ s.blk.apt → t.blk.feedFault = true ∧ t.blk.ict = s.blk.ict + 1 ∧
        t.blk.apt = s.blk.apt ∧ t.blk.reps = s.blk.reps ∧ t.blk.fifo = q) ∧
      (s.blk.apt < CAP → e ≠ STOP → room → t.blk.feedFault = false ∧
        t.blk.ict = s.blk.ict + 1 ∧ t.blk.apt = s.blk.apt + 1 ∧ t.blk.reps = s.blk.reps ∧
        t.blk.fifo = q ++ [e.setWidth 32]) ∧
      (s.blk.apt < CAP → e ≠ STOP → ¬ room → t.blk.feedFault = true ∧
        t.blk.ict = s.blk.ict + 1 ∧ t.blk.apt = s.blk.apt ∧ t.blk.reps = s.blk.reps ∧
        t.blk.fifo = q) ∧
      (s.blk.apt < CAP → e = STOP → s.blk.reps = 1#16 → t.blk.feedFault = false ∧
        t.blk.ict = s.blk.ict + 1 ∧ t.blk.apt = s.blk.apt ∧ t.blk.reps = s.blk.reps ∧
        t.blk.fifo = q) ∧
      (s.blk.apt < CAP → e = STOP → s.blk.reps ≠ 1#16 → room → t.blk.feedFault = false ∧
        t.blk.ict = 1 ∧ t.blk.apt = 1 ∧
        t.blk.reps = (if s.blk.reps = 0#16 then 0#16 else s.blk.reps - 1#16) ∧
        t.blk.fifo = q ++ [(s.blk.arr.read 0).setWidth 32]) ∧
      (s.blk.apt < CAP → e = STOP → s.blk.reps ≠ 1#16 → ¬ room → t.blk.feedFault = true ∧
        t.blk.ict = s.blk.ict + 1 ∧ t.blk.apt = s.blk.apt ∧
        t.blk.reps = (if s.blk.reps = 0#16 then 0#16 else s.blk.reps - 1#16) ∧ t.blk.fifo = q)

/-- 43 R122: the elapse step clears `running` and nothing else; with a value queued the dequeue step
is enabled at once. -/
def Obligations.ElapseResult : Prop :=
  ∀ (s : State) (turns : List Turn),
    s.agenda = .tmr :: turns → s.blk.active = true → s.blk.running = true →
    s.blk.feedFault = false →
    ∃ t, step s = .next t ∧
      t = { s with blk := { s.blk with running := false }, agenda := turns } ∧
      (s.blk.fifo ≠ [] → dequeueEnabled t.blk = true)

/-- Inactive, stalled on an empty queue (43 R123) or stuck on `feed_fault` (60 R137), TMR's turn
changes nothing. -/
def Obligations.StalledTurnChangesNothing : Prop :=
  ∀ (s : State) (turns : List Turn), s.agenda = .tmr :: turns →
    (s.blk.active = false ∨ (s.blk.running = false ∧ s.blk.fifo = []) ∨ s.blk.feedFault = true) →
    step s = .next { s with agenda := turns }

/-- 60 R137: with `feed_fault` set and no `RESET`, every step keeps the bit and the level and plays
nothing more. -/
def Obligations.FeedFaultSticksUntilReset : Prop :=
  ∀ s t : State, s.blk.feedFault = true → noReset s.agenda → step s = .next t →
    t.blk.feedFault = true ∧ t.blk.level = s.blk.level ∧ t.trace.length = s.trace.length

/-- 10 R31, the columns of the interrupt: TMR's turn writes neither the buffer, its pointer and polarity,
nor `icm`, `started`, `active`. -/
def Obligations.TmrWritesOnlyItsElements : Prop :=
  ∀ s : State,
    (tmrTurn s).blk.arr = s.blk.arr ∧ (tmrTurn s).blk.aptr = s.blk.aptr ∧
    (tmrTurn s).blk.carrier = s.blk.carrier ∧ (tmrTurn s).blk.icm = s.blk.icm ∧
    (tmrTurn s).blk.started = s.blk.started ∧ (tmrTurn s).blk.active = s.blk.active ∧
    (tmrTurn s).port = s.port ∧ (tmrTurn s).agenda = s.agenda ∧
    (tmrTurn s).response = s.response

/-- 10 R31, the columns of the host: no command writes `level` or `feed_fault`; only those that begin a
session touch the session and the peripheral, but for `CANCEL`'s write of `reps`; only those that append
move the pointer and the polarity. -/
def Obligations.HostWritesOnlyItsElements : Prop :=
  ∀ (i : Instr) (s t : State), hostOnly s.agenda → exec i s = .next t →
    t.blk.level = s.blk.level ∧ t.blk.feedFault = s.blk.feedFault ∧
    (beginsSession i = false →
      t.blk.icm = s.blk.icm ∧ t.blk.ict = s.blk.ict ∧ t.blk.apt = s.blk.apt ∧
      t.blk.started = s.blk.started ∧ t.blk.active = s.blk.active ∧ t.blk.fifo = s.blk.fifo ∧
      t.blk.phase = s.blk.phase ∧ t.blk.running = s.blk.running ∧ t.blk.cur = s.blk.cur ∧
      t.blk.pin = s.blk.pin ∧ t.trace = s.trace ∧ (i ≠ .cancel → t.blk.reps = s.blk.reps)) ∧
    (movesPointer i = false → t.blk.aptr = s.blk.aptr ∧ t.blk.carrier = s.blk.carrier)

/-- The carrier output by `level` and `cfg` (43 R130, R132), at the frequency of `cfg` (43 R131); the
on duty is `cfg.DUTY_ON_PCT` whatever the wiring, and a percentage from 1 to 100 when `cfg` is legal. -/
def Obligations.CarrierOutputTable : Prop :=
  ∀ s : State, s.output.hz = s.cfg.carrierHz ∧
    (s.blk.level = .on → s.output.dutyPct = s.cfg.dutyOnPct) ∧
    (s.blk.level = .off → s.cfg.activeLow = false → s.output.dutyPct = 0) ∧
    (s.blk.level = .off → s.cfg.activeLow = true → s.output.dutyPct = 100) ∧
    (s.cfg.legal → s.blk.level = .on → 1 ≤ s.output.dutyPct ∧ s.output.dutyPct ≤ 100)

/-! ### Whole playbacks

`unattended` runs are those in which TMR moves at every step: with no word on the port and no turn laid
down that is the model's default order (notes/assumptions/5.md), and a TMR turn with no enabled step
changes nothing (notes/assumptions/16.md). -/

/-- 42 R113: one `SEND N, v` of a non-empty sequence, left alone, plays `N * icm` entries and ends with
the counts the rule gives; with `validate = 1` carrier and pin are off. That TMR moves at every step is
the default order of notes/assumptions/5.md, the closing `step u = .next u` is notes/assumptions/16.md. -/
def Obligations.PlaybackCountsEveryFrame : Prop :=
  ∀ (s t : State) (n : BitVec 16) (v : Bool),
    unattended s → s.blk.feedFault = false → s.cfg.legal → n ≠ 0#16 →
    exec (.send n v) s = .next t → 0 < t.blk.icm →
    ∃ u, Host.Core.run Sys2Proof.core (2 * (n.toNat * t.blk.icm)) t = .next u ∧
      u.trace.length = t.trace.length + n.toNat * t.blk.icm ∧
      u.blk.apt = t.blk.icm ∧ u.blk.reps = 1#16 ∧ u.blk.fifo = [] ∧ u.blk.active = true ∧
      u.blk.running = false ∧ u.blk.arr = t.blk.arr ∧
      u.blk.ict = (if n = 1#16 then t.blk.icm else t.blk.icm + min t.blk.icm 4) ∧
      (v = true → u.blk.level = .off ∧ u.blk.pin = false) ∧ step u = .next u

/-- 42 R107: the ticks of that playback are the live entries, once for each frame, with no gap and none
truncated. TMR moves at every step by the default order of notes/assumptions/5.md. -/
def Obligations.PlaybackRepeatsTheEntries : Prop :=
  ∀ (s t u : State) (n : BitVec 16) (v : Bool),
    unattended s → s.blk.feedFault = false → s.cfg.legal → n ≠ 0#16 →
    exec (.send n v) s = .next t →
    Host.Core.run Sys2Proof.core (2 * (n.toNat * t.blk.icm)) t = .next u →
    (u.trace.drop t.trace.length).map (fun g => (g.ticks, g.truncated)) =
      (List.replicate n.toNat ((entriesFrom t.blk.arr 0 t.blk.icm).map
        fun e => (e.setWidth 32, false))).flatten

/-- `SEND 0, v` of a non-empty sequence never ends: TMR always has an enabled step (42 R107, R113). TMR
moves at every step by the default order of notes/assumptions/5.md. -/
def Obligations.InfinitePlaybackNeverEnds : Prop :=
  ∀ (s t : State) (v : Bool), unattended s → s.blk.feedFault = false → s.cfg.legal →
    exec (.send 0#16 v) s = .next t → 0 < t.blk.icm →
    ∀ k, ∃ u, Host.Core.run Sys2Proof.core k t = .next u ∧
      (dequeueEnabled u.blk = true ∨ elapseEnabled u.blk = true)

/-- One frame (42 R109 (a), 70 R181): after `k` events `ict` is `k` and `BUSY` is 1 exactly while `k` is
less than the live length, once the `k`-th value has elapsed and already while it is held: `BUSY` turns 0
when the last entry begins to be held, not when it ends. TMR moves at every step by the default order of
notes/assumptions/5.md. -/
def Obligations.BusyThroughOneFrame : Prop :=
  ∀ (s t : State) (v : Bool) (k : Nat), unattended s → s.blk.feedFault = false → s.cfg.legal →
    exec (.send 1#16 v) s = .next t → k ≤ t.blk.icm →
    (∃ u, Host.Core.run Sys2Proof.core (2 * k) t = .next u ∧ u.blk.ict = k ∧
      u.blk.running = false ∧
      exec .busy u = .next { u with response := some ⟨.ok, decide (k < t.blk.icm)⟩ }) ∧
    (k < t.blk.icm → ∃ u, Host.Core.run Sys2Proof.core (2 * k + 1) t = .next u ∧
      u.blk.ict = k + 1 ∧ u.blk.running = true ∧
      exec .busy u = .next { u with response := some ⟨.ok, decide (k + 1 < t.blk.icm)⟩ })

/-- One frame leaves the carrier and the pin on exactly when the live length is odd (70 R166, 20 R46);
the level of each entry on the way is the parity of its index (10 R11). TMR moves at every step by the
default order of notes/assumptions/5.md. -/
def Obligations.OneFrameFinalLevel : Prop :=
  ∀ (s t u : State) (v : Bool), unattended s → s.blk.feedFault = false → s.cfg.legal →
    exec (.send 1#16 v) s = .next t → 0 < t.blk.icm →
    Host.Core.run Sys2Proof.core (2 * t.blk.icm) t = .next u →
    (u.blk.level = .on ↔ t.blk.icm % 2 = 1) ∧ (u.blk.pin = true ↔ t.blk.icm % 2 = 1) ∧
    (u.trace.drop t.trace.length).map (fun g => (g.pin, g.level)) =
      (List.range t.blk.icm).map markOrSpace

/-- `SEND N, 1` leaves an even live length (20 R46), and over an even length every entry of every frame
has its pin and level, a mark when its index is even (42 R111, 10 R11); the playback ends with carrier and
pin off. TMR moves at every step by the default order of notes/assumptions/5.md. -/
def Obligations.EveryFrameHasItsLevels : Prop :=
  ∀ (s t u : State) (n : BitVec 16) (v : Bool),
    unattended s → s.blk.feedFault = false → s.cfg.legal → n ≠ 0#16 →
    exec (.send n v) s = .next t → 0 < t.blk.icm →
    Host.Core.run Sys2Proof.core (2 * (n.toNat * t.blk.icm)) t = .next u →
    (v = true → t.blk.icm % 2 = 0) ∧
    (t.blk.icm % 2 = 0 →
      (u.trace.drop t.trace.length).map (fun g => (g.pin, g.level)) =
        (List.replicate n.toNat ((List.range t.blk.icm).map markOrSpace)).flatten ∧
      u.blk.level = .off ∧ u.blk.pin = false)

/-- The table of 42 R111, for every length and every `repeats`, the infinite 0 with it: `ict` when the
entry `j` of frame `f` (from 0) is about to be dequeued, the level its `FEED` sets from that count, and
`ict` afterwards, 1 when the `FEED` starts a repeat. TMR moves at every step by the default order of
notes/assumptions/5.md. -/
def Obligations.EventCountTable : Prop :=
  ∀ (s t : State) (n : BitVec 16) (v : Bool) (f j : Nat),
    unattended s → s.blk.feedFault = false → s.cfg.legal →
    exec (.send n v) s = .next t → j < t.blk.icm → (n = 0#16 ∨ f < n.toNat) →
    let k := f * t.blk.icm + j
    let count := countOnEntry t.blk.icm n f j
    let repeats := j = t.blk.icm - min t.blk.icm 4 ∧ (n = 0#16 ∨ f + 1 < n.toNat)
    ∃ u w, Host.Core.run Sys2Proof.core (2 * k) t = .next u ∧
      Host.Core.run Sys2Proof.core (2 * k + 1) t = .next w ∧
      dequeueEnabled u.blk = true ∧ u.blk.ict = count ∧
      w.blk.cur = (t.blk.arr.read j).setWidth 32 ∧ (w.blk.level = .on ↔ count % 2 = 0) ∧
      (repeats → w.blk.ict = 1) ∧ (¬ repeats → w.blk.ict = count + 1)

/-- After `CANCEL` the playback ends (42 R110): left alone, the queued values and then the entries from
`apt` to the STOP are still played, exactly those and none truncated, and the peripheral stalls. TMR moves
at every step by the default order of notes/assumptions/5.md, the closing `step u = .next u` is
notes/assumptions/16.md. -/
def Obligations.CancelledPlaybackEnds : Prop :=
  ∀ s t : State, unattended s → s.cfg.legal → s.blk.active = true → s.blk.feedFault = false →
    inLiveEntries s.blk → s.blk.fifo.length ≤ 4 → (s.blk.fifo = [] → s.blk.apt = s.blk.icm) →
    exec .cancel s = .next t →
    let left := s.blk.fifo.length + (s.blk.icm - s.blk.apt)
    ∃ u, Host.Core.run Sys2Proof.core (2 * left + (if s.blk.running then 1 else 0)) t = .next u ∧
      u.trace.length = t.trace.length + left ∧
      (u.trace.drop t.trace.length).map (fun g => (g.ticks, g.truncated)) =
        (s.blk.fifo ++ (entriesFrom s.blk.arr s.blk.apt (s.blk.icm - s.blk.apt)).map
          fun e => e.setWidth 32).map (fun w => (w, false)) ∧
      u.blk.fifo = [] ∧ u.blk.running = false ∧ u.blk.apt = t.blk.icm ∧ step u = .next u

/-- The driver's state machine (42 R114): reset is Idle; `SEND` leaves Priming, or Idle for an empty
sequence; a dequeue leads to Streaming, and one whose `FEED` takes the repeat branch to Repeating, with
`apt` and `ict` at 1; active and stalled is Idle; no state is two of Idle, Priming and Streaming, every
state of a run is one of them, and Repeating is Streaming. That `ict` other than 0 stands for 'after the
first dequeue', and `ict` plus the queued values other than `apt` for 'has taken the repeat branch', is
the model's reading (notes/assumptions/22.md). -/
def Obligations.DriverStateMachine : Prop :=
  isIdle State.reset.blk = true ∧
  (∀ (s t : State) (r : BitVec 16) (v : Bool), exec (.send r v) s = .next t →
    (t.blk.icm = 0 → isIdle t.blk = true) ∧ (0 < t.blk.icm → isPriming t.blk = true)) ∧
  (∀ s : State, dequeueEnabled s.blk = true → isStreaming (tmrTurn s).blk = true) ∧
  (∀ s : State, takesRepeat s.blk = true → s.blk.fifo.length ≤ s.cfg.fifoDepth →
    (tmrTurn s).blk.apt = 1 ∧ (tmrTurn s).blk.ict = 1 ∧ isStreaming (tmrTurn s).blk = true ∧
    isRepeating (tmrTurn s).blk = true) ∧
  (∀ b : Block, b.active = true → b.running = false → b.fifo = [] → isIdle b = true) ∧
  (∀ s : State, Inv s →
    isIdle s.blk = true ∨ isPriming s.blk = true ∨ isStreaming s.blk = true) ∧
  (∀ b : Block, isRepeating b = true → isStreaming b = true) ∧
  (∀ b : Block, ¬ (isIdle b = true ∧ isPriming b = true) ∧
    ¬ (isIdle b = true ∧ isStreaming b = true) ∧ ¬ (isPriming b = true ∧ isStreaming b = true))

/-- `hasRepeated` is the history 42 R114 speaks of: no repeat at reset and after `SEND`; a dequeue sets
it exactly when its `FEED` takes the repeat branch, and otherwise, as the elapse step, leaves it; the
other commands leave it; after `CANCEL` no `FEED` takes the repeat branch. That it stands for the history
is the model's reading (notes/assumptions/22.md). -/
def Obligations.RepeatingFollowsTheRepeatBranch : Prop :=
  hasRepeated State.reset.blk = false ∧
  (∀ (s t : State) (r : BitVec 16) (v : Bool), exec (.send r v) s = .next t →
    hasRepeated t.blk = false) ∧
  (∀ s : State, s.blk.fifo.length ≤ s.cfg.fifoDepth → hasRepeated (tmrTurn s).blk =
    (takesRepeat s.blk || hasRepeated s.blk)) ∧
  (∀ (i : Instr) (s t : State), beginsSession i = false → hostOnly s.agenda →
    exec i s = .next t → hasRepeated t.blk = hasRepeated s.blk) ∧
  (∀ s t : State, exec .cancel s = .next t → takesRepeat t.blk = false)

/-! ### Noninterference -/

/-- No rule reads the trace or the response (10 R33): two runs that differ only in them stay equal in
everything else. -/
def Obligations.ObservationIsNeverRead : Prop :=
  ∀ s : State,
    mapNext State.unobserved (step s) = mapNext State.unobserved (step s.unobserved)
end

