-- ==== Sys2Proof/Laws/State.lean ====
section
/-! SUPPORT. What each named update does to each field, true by rfl. -/

/-- The default configuration is a legal one, whatever its on duty. -/
theorem Sys2Proof.Cfg.default_legal : Sys2Proof.Cfg.default.legal :=
  ⟨by decide, by decide, by decide, Nat.succ_pos _, Sys2Proof.Config.dutyOnPctMinusOne.isLt⟩

namespace Sys2Proof.Machine

@[simp] theorem respond_blk (s : State) (r : Response) : (s.respond r).blk = s.blk := rfl
@[simp] theorem respond_cfg (s : State) (r : Response) : (s.respond r).cfg = s.cfg := rfl
@[simp] theorem respond_trace (s : State) (r : Response) : (s.respond r).trace = s.trace := rfl
@[simp] theorem respond_response (s : State) (r : Response) : (s.respond r).response = some r := rfl
@[simp] theorem respond_port (s : State) (r : Response) : (s.respond r).port = s.port := rfl
@[simp] theorem respond_agenda (s : State) (r : Response) : (s.respond r).agenda = s.agenda := rfl
@[simp] theorem respond_freeIx (s : State) (r : Response) : (s.respond r).freeIx = s.freeIx := rfl

@[simp] theorem respondOk_blk (s : State) : (s.respondOk).blk = s.blk := rfl
@[simp] theorem respondOk_cfg (s : State) : (s.respondOk).cfg = s.cfg := rfl
@[simp] theorem respondOk_trace (s : State) : (s.respondOk).trace = s.trace := rfl
@[simp] theorem respondOk_response (s : State) : (s.respondOk).response = some ⟨.ok, false⟩ := rfl
@[simp] theorem respondOk_port (s : State) : (s.respondOk).port = s.port := rfl
@[simp] theorem respondOk_agenda (s : State) : (s.respondOk).agenda = s.agenda := rfl
@[simp] theorem respondOk_freeIx (s : State) : (s.respondOk).freeIx = s.freeIx := rfl

@[simp] theorem takeHostFault_blk (s : State) (f : HostFault) : (s.takeHostFault f).blk = s.blk := rfl
@[simp] theorem takeHostFault_cfg (s : State) (f : HostFault) : (s.takeHostFault f).cfg = s.cfg := rfl
@[simp] theorem takeHostFault_trace (s : State) (f : HostFault) : (s.takeHostFault f).trace = s.trace := rfl
@[simp] theorem takeHostFault_response (s : State) (f : HostFault) : (s.takeHostFault f).response = some ⟨.fault f, false⟩ := rfl
@[simp] theorem takeHostFault_port (s : State) (f : HostFault) : (s.takeHostFault f).port = s.port := rfl
@[simp] theorem takeHostFault_agenda (s : State) (f : HostFault) : (s.takeHostFault f).agenda = s.agenda := rfl
@[simp] theorem takeHostFault_freeIx (s : State) (f : HostFault) : (s.takeHostFault f).freeIx = s.freeIx := rfl

@[simp] theorem offerWord_blk (w : Command) (s : State) : (offerWord w s).blk = s.blk := rfl
@[simp] theorem offerWord_cfg (w : Command) (s : State) : (offerWord w s).cfg = s.cfg := rfl
@[simp] theorem offerWord_trace (w : Command) (s : State) : (offerWord w s).trace = s.trace := rfl
@[simp] theorem offerWord_response (w : Command) (s : State) : (offerWord w s).response = s.response := rfl
@[simp] theorem offerWord_port (w : Command) (s : State) : (offerWord w s).port = w :: s.port := rfl
@[simp] theorem offerWord_agenda (w : Command) (s : State) : (offerWord w s).agenda = .host :: s.agenda := rfl
@[simp] theorem offerWord_freeIx (w : Command) (s : State) : (offerWord w s).freeIx = s.freeIx := rfl

@[simp] theorem activate_arr (s : State) : (activate s).blk.arr = s.blk.arr := rfl
@[simp] theorem activate_aptr (s : State) : (activate s).blk.aptr = s.blk.aptr := rfl
@[simp] theorem activate_carrier (s : State) : (activate s).blk.carrier = s.blk.carrier := rfl
@[simp] theorem activate_reps (s : State) : (activate s).blk.reps = s.blk.reps := rfl
@[simp] theorem activate_icm (s : State) : (activate s).blk.icm = s.blk.icm := rfl
@[simp] theorem activate_ict (s : State) : (activate s).blk.ict = s.blk.ict := rfl
@[simp] theorem activate_apt (s : State) : (activate s).blk.apt = s.blk.apt := rfl
@[simp] theorem activate_started (s : State) : (activate s).blk.started = s.blk.started := rfl
@[simp] theorem activate_active (s : State) : (activate s).blk.active = true := rfl
@[simp] theorem activate_fifo (s : State) : (activate s).blk.fifo = s.blk.fifo := rfl
@[simp] theorem activate_phase (s : State) : (activate s).blk.phase = s.blk.phase := rfl
@[simp] theorem activate_running (s : State) : (activate s).blk.running = s.blk.running := rfl
@[simp] theorem activate_cur (s : State) : (activate s).blk.cur = s.blk.cur := rfl
@[simp] theorem activate_pin (s : State) : (activate s).blk.pin = s.blk.pin := rfl
@[simp] theorem activate_level (s : State) : (activate s).blk.level = s.blk.level := rfl
@[simp] theorem activate_feedFault (s : State) : (activate s).blk.feedFault = s.blk.feedFault := rfl
@[simp] theorem activate_cfg (s : State) : (activate s).cfg = s.cfg := rfl
@[simp] theorem activate_trace (s : State) : (activate s).trace = s.trace := rfl
@[simp] theorem activate_response (s : State) : (activate s).response = s.response := rfl
@[simp] theorem activate_port (s : State) : (activate s).port = s.port := rfl
@[simp] theorem activate_agenda (s : State) : (activate s).agenda = s.agenda := rfl
@[simp] theorem activate_freeIx (s : State) : (activate s).freeIx = s.freeIx := rfl

@[simp] theorem deactivate_arr (s : State) : (deactivate s).blk.arr = s.blk.arr := rfl
@[simp] theorem deactivate_aptr (s : State) : (deactivate s).blk.aptr = s.blk.aptr := rfl
@[simp] theorem deactivate_carrier (s : State) : (deactivate s).blk.carrier = s.blk.carrier := rfl
@[simp] theorem deactivate_reps (s : State) : (deactivate s).blk.reps = s.blk.reps := rfl
@[simp] theorem deactivate_icm (s : State) : (deactivate s).blk.icm = s.blk.icm := rfl
@[simp] theorem deactivate_ict (s : State) : (deactivate s).blk.ict = s.blk.ict := rfl
@[simp] theorem deactivate_apt (s : State) : (deactivate s).blk.apt = s.blk.apt := rfl
@[simp] theorem deactivate_started (s : State) : (deactivate s).blk.started = s.blk.started := rfl
@[simp] theorem deactivate_active (s : State) : (deactivate s).blk.active = false := rfl
@[simp] theorem deactivate_fifo (s : State) : (deactivate s).blk.fifo = [] := rfl
@[simp] theorem deactivate_phase (s : State) : (deactivate s).blk.phase = .X := rfl
@[simp] theorem deactivate_running (s : State) : (deactivate s).blk.running = false := rfl
@[simp] theorem deactivate_cur (s : State) : (deactivate s).blk.cur = Config.unspecifiedCur s.freeIx := rfl
@[simp] theorem deactivate_pin (s : State) : (deactivate s).blk.pin = false := rfl
@[simp] theorem deactivate_level (s : State) : (deactivate s).blk.level = s.blk.level := rfl
@[simp] theorem deactivate_feedFault (s : State) : (deactivate s).blk.feedFault = s.blk.feedFault := rfl
@[simp] theorem deactivate_cfg (s : State) : (deactivate s).cfg = s.cfg := rfl
@[simp] theorem deactivate_trace (s : State) : (deactivate s).trace = if s.blk.running then truncateLast s.trace else s.trace := rfl
@[simp] theorem deactivate_response (s : State) : (deactivate s).response = s.response := rfl
@[simp] theorem deactivate_port (s : State) : (deactivate s).port = s.port := rfl
@[simp] theorem deactivate_agenda (s : State) : (deactivate s).agenda = s.agenda := rfl
@[simp] theorem deactivate_freeIx (s : State) : (deactivate s).freeIx = s.freeIx + 1 := rfl

@[simp] theorem elapseStep_arr (s : State) : (elapseStep s).blk.arr = s.blk.arr := rfl
@[simp] theorem elapseStep_aptr (s : State) : (elapseStep s).blk.aptr = s.blk.aptr := rfl
@[simp] theorem elapseStep_carrier (s : State) : (elapseStep s).blk.carrier = s.blk.carrier := rfl
@[simp] theorem elapseStep_reps (s : State) : (elapseStep s).blk.reps = s.blk.reps := rfl
@[simp] theorem elapseStep_icm (s : State) : (elapseStep s).blk.icm = s.blk.icm := rfl
@[simp] theorem elapseStep_ict (s : State) : (elapseStep s).blk.ict = s.blk.ict := rfl
@[simp] theorem elapseStep_apt (s : State) : (elapseStep s).blk.apt = s.blk.apt := rfl
@[simp] theorem elapseStep_started (s : State) : (elapseStep s).blk.started = s.blk.started := rfl
@[simp] theorem elapseStep_active (s : State) : (elapseStep s).blk.active = s.blk.active := rfl
@[simp] theorem elapseStep_fifo (s : State) : (elapseStep s).blk.fifo = s.blk.fifo := rfl
@[simp] theorem elapseStep_phase (s : State) : (elapseStep s).blk.phase = s.blk.phase := rfl
@[simp] theorem elapseStep_running (s : State) : (elapseStep s).blk.running = false := rfl
@[simp] theorem elapseStep_cur (s : State) : (elapseStep s).blk.cur = s.blk.cur := rfl
@[simp] theorem elapseStep_pin (s : State) : (elapseStep s).blk.pin = s.blk.pin := rfl
@[simp] theorem elapseStep_level (s : State) : (elapseStep s).blk.level = s.blk.level := rfl
@[simp] theorem elapseStep_feedFault (s : State) : (elapseStep s).blk.feedFault = s.blk.feedFault := rfl
@[simp] theorem elapseStep_cfg (s : State) : (elapseStep s).cfg = s.cfg := rfl
@[simp] theorem elapseStep_trace (s : State) : (elapseStep s).trace = s.trace := rfl
@[simp] theorem elapseStep_response (s : State) : (elapseStep s).response = s.response := rfl
@[simp] theorem elapseStep_port (s : State) : (elapseStep s).port = s.port := rfl
@[simp] theorem elapseStep_agenda (s : State) : (elapseStep s).agenda = s.agenda := rfl
@[simp] theorem elapseStep_freeIx (s : State) : (elapseStep s).freeIx = s.freeIx := rfl

@[simp] theorem resetTurn_blk (s : State) : (resetTurn s).blk = Block.afterReset (Config.unspecifiedCur s.freeIx) := rfl
@[simp] theorem resetTurn_cfg (s : State) : (resetTurn s).cfg = s.cfg := rfl
@[simp] theorem resetTurn_trace (s : State) : (resetTurn s).trace = [] := rfl
@[simp] theorem resetTurn_response (s : State) : (resetTurn s).response = none := rfl
@[simp] theorem resetTurn_port (s : State) : (resetTurn s).port = s.port := rfl
@[simp] theorem resetTurn_agenda (s : State) : (resetTurn s).agenda = s.agenda := rfl
@[simp] theorem resetTurn_freeIx (s : State) : (resetTurn s).freeIx = s.freeIx + 1 := rfl

@[simp] theorem holdNext_arr (w : Ticks) (rest : List Ticks) (b : Block) : (holdNext w rest b).arr = b.arr := rfl
@[simp] theorem holdNext_aptr (w : Ticks) (rest : List Ticks) (b : Block) : (holdNext w rest b).aptr = b.aptr := rfl
@[simp] theorem holdNext_carrier (w : Ticks) (rest : List Ticks) (b : Block) : (holdNext w rest b).carrier = b.carrier := rfl
@[simp] theorem holdNext_reps (w : Ticks) (rest : List Ticks) (b : Block) : (holdNext w rest b).reps = b.reps := rfl
@[simp] theorem holdNext_icm (w : Ticks) (rest : List Ticks) (b : Block) : (holdNext w rest b).icm = b.icm := rfl
@[simp] theorem holdNext_ict (w : Ticks) (rest : List Ticks) (b : Block) : (holdNext w rest b).ict = b.ict := rfl
@[simp] theorem holdNext_apt (w : Ticks) (rest : List Ticks) (b : Block) : (holdNext w rest b).apt = b.apt := rfl
@[simp] theorem holdNext_started (w : Ticks) (rest : List Ticks) (b : Block) : (holdNext w rest b).started = b.started := rfl
@[simp] theorem holdNext_active (w : Ticks) (rest : List Ticks) (b : Block) : (holdNext w rest b).active = b.active := rfl
@[simp] theorem holdNext_fifo (w : Ticks) (rest : List Ticks) (b : Block) : (holdNext w rest b).fifo = rest := rfl
@[simp] theorem holdNext_phase (w : Ticks) (rest : List Ticks) (b : Block) : (holdNext w rest b).phase = b.phase.flip := rfl
@[simp] theorem holdNext_running (w : Ticks) (rest : List Ticks) (b : Block) : (holdNext w rest b).running = true := rfl
@[simp] theorem holdNext_cur (w : Ticks) (rest : List Ticks) (b : Block) : (holdNext w rest b).cur = w := rfl
@[simp] theorem holdNext_pin (w : Ticks) (rest : List Ticks) (b : Block) : (holdNext w rest b).pin = pinOfPhase b.phase := rfl
@[simp] theorem holdNext_level (w : Ticks) (rest : List Ticks) (b : Block) : (holdNext w rest b).level = b.level := rfl
@[simp] theorem holdNext_feedFault (w : Ticks) (rest : List Ticks) (b : Block) : (holdNext w rest b).feedFault = b.feedFault := rfl

@[simp] theorem raiseFeedFault_arr (b : Block) : (raiseFeedFault b).arr = b.arr := rfl
@[simp] theorem raiseFeedFault_aptr (b : Block) : (raiseFeedFault b).aptr = b.aptr := rfl
@[simp] theorem raiseFeedFault_carrier (b : Block) : (raiseFeedFault b).carrier = b.carrier := rfl
@[simp] theorem raiseFeedFault_reps (b : Block) : (raiseFeedFault b).reps = b.reps := rfl
@[simp] theorem raiseFeedFault_icm (b : Block) : (raiseFeedFault b).icm = b.icm := rfl
@[simp] theorem raiseFeedFault_ict (b : Block) : (raiseFeedFault b).ict = b.ict := rfl
@[simp] theorem raiseFeedFault_apt (b : Block) : (raiseFeedFault b).apt = b.apt := rfl
@[simp] theorem raiseFeedFault_started (b : Block) : (raiseFeedFault b).started = b.started := rfl
@[simp] theorem raiseFeedFault_active (b : Block) : (raiseFeedFault b).active = b.active := rfl
@[simp] theorem raiseFeedFault_fifo (b : Block) : (raiseFeedFault b).fifo = b.fifo := rfl
@[simp] theorem raiseFeedFault_phase (b : Block) : (raiseFeedFault b).phase = b.phase := rfl
@[simp] theorem raiseFeedFault_running (b : Block) : (raiseFeedFault b).running = b.running := rfl
@[simp] theorem raiseFeedFault_cur (b : Block) : (raiseFeedFault b).cur = b.cur := rfl
@[simp] theorem raiseFeedFault_pin (b : Block) : (raiseFeedFault b).pin = b.pin := rfl
@[simp] theorem raiseFeedFault_level (b : Block) : (raiseFeedFault b).level = b.level := rfl
@[simp] theorem raiseFeedFault_feedFault (b : Block) : (raiseFeedFault b).feedFault = true := rfl

@[simp] theorem quiet_blk (s : State) : (s.quiet).blk = s.blk := rfl
@[simp] theorem quiet_cfg (s : State) : (s.quiet).cfg = s.cfg := rfl
@[simp] theorem quiet_trace (s : State) : (s.quiet).trace = s.trace := rfl
@[simp] theorem quiet_response (s : State) : (s.quiet).response = none := rfl
@[simp] theorem quiet_port (s : State) : (s.quiet).port = [] := rfl
@[simp] theorem quiet_agenda (s : State) : (s.quiet).agenda = [] := rfl
@[simp] theorem quiet_freeIx (s : State) : (s.quiet).freeIx = s.freeIx := rfl

@[simp] theorem unobserved_blk (s : State) : (s.unobserved).blk = s.blk := rfl
@[simp] theorem unobserved_cfg (s : State) : (s.unobserved).cfg = s.cfg := rfl
@[simp] theorem unobserved_trace (s : State) : (s.unobserved).trace = [] := rfl
@[simp] theorem unobserved_response (s : State) : (s.unobserved).response = none := rfl
@[simp] theorem unobserved_port (s : State) : (s.unobserved).port = s.port := rfl
@[simp] theorem unobserved_agenda (s : State) : (s.unobserved).agenda = s.agenda := rfl
@[simp] theorem unobserved_freeIx (s : State) : (s.unobserved).freeIx = s.freeIx := rfl

end Sys2Proof.Machine
end

