-- ==== Sys2Proof/Laws/Memory.lean ====
section
/-! SUPPORT. The laws of the Pulse Buffer: read after write, and the canonical form is kept. -/

namespace Sys2Proof.Machine

@[simp] theorem Memory.read_nil (i : Nat) : Memory.read [] i = STOP := rfl

theorem Memory.read_unlist (m : Memory) (i j : Nat) :
    (m.unlist i).read j = if j = i then STOP else m.read j := by
  induction m with
  | nil => simp [Memory.unlist, Memory.read]
  | cons c rest ih =>
    obtain ⟨k, u⟩ := c
    by_cases hk : k = i
    · simp only [Memory.unlist, hk, if_true, ih, Memory.read]
      by_cases hj : j = i <;> simp [hj]
    · by_cases hj : j = k
      · subst hj; simp [Memory.unlist, Memory.read, hk]
      · simp [Memory.unlist, Memory.read, hk, hj, ih]

theorem Memory.not_listed_unlist (m : Memory) (i : Nat) : ∀ c ∈ m.unlist i, c.1 ≠ i := by
  induction m with
  | nil => simp [Memory.unlist]
  | cons c rest ih =>
    obtain ⟨k, u⟩ := c
    by_cases hk : k = i
    · simpa [Memory.unlist, hk] using ih
    · simpa [Memory.unlist, hk] using ih

theorem Memory.read_list_same (m : Memory) (i : Nat) (v : Entry) (h : ∀ c ∈ m, c.1 ≠ i) :
    (m.list i v).read i = v := by
  induction m with
  | nil => simp [Memory.list, Memory.read]
  | cons c rest ih =>
    obtain ⟨k, u⟩ := c
    have hk : i ≠ k := fun e => h (k, u) (by simp) e.symm
    by_cases hlt : i < k
    · simp [Memory.list, hlt, Memory.read]
    · simpa [Memory.list, hlt, Memory.read, hk] using ih fun c hc => h c (by simp [hc])

theorem Memory.read_list_other (m : Memory) {i j : Nat} (v : Entry) (h : j ≠ i) :
    (m.list i v).read j = m.read j := by
  induction m with
  | nil => simp [Memory.list, Memory.read, h]
  | cons c rest ih =>
    obtain ⟨k, u⟩ := c
    by_cases hlt : i < k
    · simp [Memory.list, hlt, Memory.read, h]
    · simp [Memory.list, hlt, Memory.read, ih]

/-- Read after write: the written entry reads as the value, every other entry as before. -/
theorem Memory.read_write (m : Memory) (i j : Nat) (v : Entry) :
    (m.write i v).read j = if j = i then v else m.read j := by
  by_cases hv : v = STOP
  · simp [Memory.write, hv, Memory.read_unlist]
  · by_cases hj : j = i
    · subst hj
      simp [Memory.write, hv, Memory.read_list_same _ _ _ (Memory.not_listed_unlist m j)]
    · simp [Memory.write, hv, hj, Memory.read_list_other, Memory.read_unlist]

@[simp] theorem Memory.read_write_same (m : Memory) (i : Nat) (v : Entry) :
    (m.write i v).read i = v := by
  simp [Memory.read_write]

theorem Memory.read_write_other (m : Memory) {i j : Nat} (v : Entry) (h : j ≠ i) :
    (m.write i v).read j = m.read j := by
  simp [Memory.read_write, h]

@[simp] theorem Memory.wfFrom_cons (lo k : Nat) (v : Entry) (rest : Memory) :
    Memory.wfFrom lo ((k, v) :: rest) = true ↔
      ((lo ≤ k ∧ k < CAP) ∧ v ≠ STOP) ∧ Memory.wfFrom (k + 1) rest = true := by
  simp [Memory.wfFrom]

theorem Memory.wfFrom_le {m : Memory} {lo lo' : Nat} (h : m.wfFrom lo = true) (hle : lo' ≤ lo) :
    m.wfFrom lo' = true := by
  cases m with
  | nil => rfl
  | cons c rest =>
    obtain ⟨k, v⟩ := c
    simp only [Memory.wfFrom_cons] at h ⊢
    exact ⟨⟨⟨by omega, h.1.1.2⟩, h.1.2⟩, h.2⟩

theorem Memory.unlist_wfFrom {m : Memory} {lo : Nat} (i : Nat) (h : m.wfFrom lo = true) :
    (m.unlist i).wfFrom lo = true := by
  induction m generalizing lo with
  | nil => rfl
  | cons c rest ih =>
    obtain ⟨k, v⟩ := c
    simp only [Memory.wfFrom_cons] at h
    by_cases hk : k = i
    · simpa [Memory.unlist, hk] using Memory.wfFrom_le (ih h.2) (by omega)
    · simp only [Memory.unlist, hk, if_false, Memory.wfFrom_cons]
      exact ⟨h.1, ih h.2⟩

theorem Memory.list_wfFrom {m : Memory} {lo i : Nat} {v : Entry} (h : m.wfFrom lo = true)
    (hi : lo ≤ i) (hc : i < CAP) (hv : v ≠ STOP) (hn : ∀ c ∈ m, c.1 ≠ i) :
    (m.list i v).wfFrom lo = true := by
  induction m generalizing lo with
  | nil =>
    simp only [Memory.list, Memory.wfFrom_cons]
    exact ⟨⟨⟨hi, hc⟩, hv⟩, rfl⟩
  | cons c rest ih =>
    obtain ⟨k, u⟩ := c
    simp only [Memory.wfFrom_cons] at h
    have hk : k ≠ i := hn (k, u) (by simp)
    by_cases hlt : i < k
    · simp only [Memory.list, hlt, if_true, Memory.wfFrom_cons]
      exact ⟨⟨⟨hi, hc⟩, hv⟩, ⟨⟨by omega, h.1.1.2⟩, h.1.2⟩, h.2⟩
    · simp only [Memory.list, hlt, if_false, Memory.wfFrom_cons]
      exact ⟨h.1, ih h.2 (by omega) fun c hc => hn c (by simp [hc])⟩

/-- A write inside the buffer keeps the canonical form. -/
theorem Memory.write_wf {m : Memory} {i : Nat} (v : Entry) (h : m.wf = true) (hi : i < CAP) :
    (m.write i v).wf = true := by
  by_cases hv : v = STOP
  · rw [Memory.write, if_pos hv]
    exact Memory.unlist_wfFrom i h
  · rw [Memory.write, if_neg hv]
    exact Memory.list_wfFrom (Memory.unlist_wfFrom i h) (Nat.zero_le i) hi hv
      (Memory.not_listed_unlist m i)

/-- A STOP written anywhere keeps the canonical form: it lists nothing. -/
theorem Memory.write_stop_wf {m : Memory} (i : Nat) (h : m.wf = true) :
    (m.write i STOP).wf = true := by
  rw [Memory.write, if_pos rfl]
  exact Memory.unlist_wfFrom i h

/-- The buffer at reset is in its canonical form. -/
theorem Memory.reset_wf : State.reset.blk.arr.wf = true := rfl

theorem memRead_eq_some {m : Memory} {i : Nat} {e : Entry} :
    memRead m i = some e ↔ i < CAP ∧ m.read i = e := by
  by_cases h : i < CAP <;> simp [memRead, h]

theorem memRead_eq_none {m : Memory} {i : Nat} : memRead m i = none ↔ CAP ≤ i := by
  by_cases h : i < CAP <;> simp [memRead, h]; omega

theorem memWrite_eq_some {m m' : Memory} {i : Nat} {v : Entry} :
    memWrite m i v = some m' ↔ i < CAP ∧ m.write i v = m' := by
  by_cases h : i < CAP <;> simp [memWrite, h]

theorem memWrite_eq_none {m : Memory} {i : Nat} {v : Entry} :
    memWrite m i v = none ↔ CAP ≤ i := by
  by_cases h : i < CAP <;> simp [memWrite, h]; omega

/-- The checked write keeps the canonical form. -/
theorem memWrite_wf {m m' : Memory} {i : Nat} {v : Entry} (h : m.wf = true)
    (hw : memWrite m i v = some m') : m'.wf = true := by
  obtain ⟨hi, rfl⟩ := memWrite_eq_some.mp hw
  exact Memory.write_wf v h hi

theorem firstStopFrom_spec (m : Memory) (fuel i : Nat) :
    i ≤ firstStopFrom m fuel i ∧ firstStopFrom m fuel i ≤ i + fuel ∧
      (∀ j, i ≤ j → j < firstStopFrom m fuel i → m.read j ≠ STOP) ∧
      (firstStopFrom m fuel i < i + fuel → m.read (firstStopFrom m fuel i) = STOP) := by
  induction fuel generalizing i with
  | zero => exact ⟨le_rfl, le_rfl, fun j h1 h2 => absurd h2 (by simp [firstStopFrom]; omega), fun h => by simp [firstStopFrom] at h⟩
  | succ n ih =>
    by_cases h : m.read i = STOP
    · simp only [firstStopFrom, h, if_true]
      exact ⟨le_rfl, by omega, fun j h1 h2 => by omega, fun _ => trivial⟩
    · simp only [firstStopFrom, h, if_false]
      obtain ⟨h1, h2, h3, h4⟩ := ih (i + 1)
      refine ⟨by omega, by omega, fun j hj hlt => ?_, fun hlt => h4 (by omega)⟩
      rcases Nat.eq_or_lt_of_le hj with rfl | hj'
      · exact h
      · exact h3 j hj' hlt

theorem firstStop_le (m : Memory) : firstStop m ≤ CAP - 1 := by
  simpa [firstStop] using (firstStopFrom_spec m (CAP - 1) 0).2.1

/-- Everything `first_stop()` says: with a STOP in the last slot it is the least index holding a
STOP (20 R45). -/
theorem firstStop_spec (m : Memory) (h : m.read (CAP - 1) = STOP) :
    firstStop m ≤ CAP - 1 ∧ m.read (firstStop m) = STOP ∧
      ∀ j < firstStop m, m.read j ≠ STOP := by
  obtain ⟨_, h2, h3, h4⟩ := firstStopFrom_spec m (CAP - 1) 0
  refine ⟨firstStop_le m, ?_, fun j hj => h3 j (Nat.zero_le j) hj⟩
  rcases Nat.eq_or_lt_of_le h2 with he | hlt
  · have : firstStop m = CAP - 1 := by simpa [firstStop] using he
    rw [this]; exact h
  · exact h4 hlt

theorem fifoPush_eq_some {depth : Nat} {q q' : List Ticks} {w : Ticks} :
    fifoPush depth q w = some q' ↔ q.length < depth ∧ q ++ [w] = q' := by
  by_cases h : q.length < depth <;> simp [fifoPush, h]

theorem fifoPush_eq_none {depth : Nat} {q : List Ticks} {w : Ticks} :
    fifoPush depth q w = none ↔ depth ≤ q.length := by
  by_cases h : q.length < depth <;> simp [fifoPush, h]; omega

theorem fifoPop_eq_some {q rest : List Ticks} {w : Ticks} :
    fifoPop q = some (w, rest) ↔ q = w :: rest := by
  cases q <;> simp [fifoPop]

@[simp] theorem preload_length (m : Memory) (n : Nat) : (preload m n).length = n := by
  simp [preload]

@[simp] theorem length_truncateLast (l : List Segment) : (truncateLast l).length = l.length := by
  induction l with
  | nil => rfl
  | cons g rest ih =>
    cases rest with
    | nil => rfl
    | cons g' rest' => simpa [truncateLast] using ih

end Sys2Proof.Machine
end

