-- ==== Sys2Proof/Laws/Ops.lean ====
section
/-! SUPPORT. What each shared operation can do, said once: later proofs cite these and unfold nothing. -/

namespace Sys2Proof.Machine

/-- `APPEND` overflows, or writes at `aptr`, advances and flips (41 R91). -/
theorem appendPrim_cases (d : Entry) (s : State) :
    (CAP ≤ s.blk.aptr ∧ appendPrim d s = .raises (.bufferOverflow s.blk.aptr)) ∨
    (s.blk.aptr < CAP ∧ appendPrim d s = .done { s with
      blk := { s.blk with
        arr := s.blk.arr.write s.blk.aptr d, aptr := s.blk.aptr + 1,
        carrier := s.blk.carrier.flip } }) := by
  by_cases h : s.blk.aptr < CAP
  · exact .inr ⟨h, by simp [appendPrim, memWrite, h, Nat.not_le.mpr h]⟩
  · exact .inl ⟨by omega, by simp [appendPrim, Nat.not_lt.mp h]⟩

/-- The five ways `ADD` ends, in the order of its checks (41 R92). -/
theorem addPrim_cases (t : Int) (s : State) :
    (t ≤ 0 ∧ addPrim t s = .raises (.precondition t)) ∨
    (0 < t ∧ s.blk.aptr = 0 ∧ addPrim t s = .raises .noEntry) ∨
    (0 < t ∧ CAP < s.blk.aptr ∧ addPrim t s = .stops (.bufferIndex (s.blk.aptr - 1))) ∨
    (0 < t ∧ 0 < s.blk.aptr ∧ s.blk.aptr ≤ CAP ∧
      entryMax < extendedEntry (s.blk.arr.read (s.blk.aptr - 1)) t ∧
      addPrim t s = .raises (.entryOverflow (extendedEntry (s.blk.arr.read (s.blk.aptr - 1)) t))) ∨
    (0 < t ∧ 0 < s.blk.aptr ∧ s.blk.aptr ≤ CAP ∧
      extendedEntry (s.blk.arr.read (s.blk.aptr - 1)) t ≤ entryMax ∧
      addPrim t s = .done { s with
        blk := { s.blk with
          arr := s.blk.arr.write (s.blk.aptr - 1)
            (BitVec.ofInt 16 (extendedEntry (s.blk.arr.read (s.blk.aptr - 1)) t)) } }) := by
  by_cases ht : t ≤ 0
  · exact .inl ⟨ht, by simp [addPrim, ht]⟩
  have hpos : 0 < t := by omega
  by_cases h0 : s.blk.aptr = 0
  · exact .inr (.inl ⟨hpos, h0, by simp [addPrim, ht, h0]⟩)
  by_cases hc : CAP < s.blk.aptr
  · have : ¬ s.blk.aptr - 1 < CAP := by omega
    exact .inr (.inr (.inl ⟨hpos, hc, by simp [addPrim, memRead, ht, h0, this]⟩))
  have hi : s.blk.aptr - 1 < CAP := by omega
  by_cases ho : entryMax < extendedEntry (s.blk.arr.read (s.blk.aptr - 1)) t
  · exact .inr (.inr (.inr (.inl ⟨hpos, by omega, by omega, ho, by
      simp only [addPrim, memRead, ht, h0, hi, if_true, if_false, gt_iff_lt, ho]⟩)))
  · exact .inr (.inr (.inr (.inr ⟨hpos, by omega, by omega, by omega, by
      simp only [addPrim, memRead, memWrite, ht, h0, hi, if_true, if_false, gt_iff_lt, ho]⟩)))

/-- What `FEED` writes before its fetch: the level and the count (42 R105). -/
abbrev feedCounted (b : Block) : Block :=
  { b with level := levelOfCount b.ict, ict := b.ict + 1 }

/-- `reps` after a repeat is started (42 R107). -/
abbrev repsAfterRepeat (b : Block) : BitVec 16 := if b.reps = 0#16 then b.reps else b.reps - 1#16

/-- The six ways `FEED` ends (42 R105, 60 R137): the fetch index at `CAP`; data queued; data with the
queue full; end of playback; repeat; repeat with the queue full. -/
theorem feed_cases (cfg : Cfg) (b : Block) :
    (CAP ≤ b.apt ∧ feed cfg b = raiseFeedFault (feedCounted b)) ∨
    (b.apt < CAP ∧ b.arr.read b.apt ≠ STOP ∧ b.fifo.length < cfg.fifoDepth ∧
      feed cfg b = { feedCounted b with
        fifo := b.fifo ++ [widen (b.arr.read b.apt)], apt := b.apt + 1 }) ∨
    (b.apt < CAP ∧ b.arr.read b.apt ≠ STOP ∧ cfg.fifoDepth ≤ b.fifo.length ∧
      feed cfg b = raiseFeedFault (feedCounted b)) ∨
    (b.apt < CAP ∧ b.arr.read b.apt = STOP ∧ b.reps = 1#16 ∧ feed cfg b = feedCounted b) ∨
    (b.apt < CAP ∧ b.arr.read b.apt = STOP ∧ b.reps ≠ 1#16 ∧ b.fifo.length < cfg.fifoDepth ∧
      feed cfg b = { feedCounted b with
        reps := repsAfterRepeat b, fifo := b.fifo ++ [widen (b.arr.read 0)], apt := 1, ict := 1 }) ∨
    (b.apt < CAP ∧ b.arr.read b.apt = STOP ∧ b.reps ≠ 1#16 ∧ cfg.fifoDepth ≤ b.fifo.length ∧
      feed cfg b = raiseFeedFault { feedCounted b with reps := repsAfterRepeat b }) := by
  by_cases hc : b.apt < CAP
  swap
  · exact .inl ⟨by omega, by simp [feed, feedRefill, memRead, hc]⟩
  right
  by_cases he : b.arr.read b.apt = STOP
  · right; right
    by_cases hr : b.reps = 1#16
    · exact .inl ⟨hc, he, hr, by simp [feed, feedRefill, memRead, hc, he, hr]⟩
    right
    by_cases hf : b.fifo.length < cfg.fifoDepth
    · exact .inl ⟨hc, he, hr, hf, by
        simp [feed, feedRefill, feedRepeat, fifoPush, memRead, hc, he, hr, hf]⟩
    · exact .inr ⟨hc, he, hr, by omega, by
        simp [feed, feedRefill, feedRepeat, fifoPush, memRead, hc, he, hr, hf]⟩
  · by_cases hf : b.fifo.length < cfg.fifoDepth
    · exact .inl ⟨hc, he, hf, by
        simp [feed, feedRefill, feedData, fifoPush, memRead, hc, he, hf]⟩
    · exact .inr (.inl ⟨hc, he, by omega, by
        simp [feed, feedRefill, feedData, fifoPush, memRead, hc, he, hf]⟩)

/-- `FEED` writes only `level`, `ict`, `apt`, `reps`, `fifo` and the fault bit (42 R105). -/
theorem feed_frame (cfg : Cfg) (b : Block) :
    (feed cfg b).arr = b.arr ∧ (feed cfg b).aptr = b.aptr ∧ (feed cfg b).carrier = b.carrier ∧
    (feed cfg b).icm = b.icm ∧ (feed cfg b).started = b.started ∧
    (feed cfg b).active = b.active ∧ (feed cfg b).phase = b.phase ∧
    (feed cfg b).running = b.running ∧ (feed cfg b).cur = b.cur ∧ (feed cfg b).pin = b.pin ∧
    (feed cfg b).level = levelOfCount b.ict := by
  rcases feed_cases cfg b with ⟨_, h⟩ | ⟨_, _, _, h⟩ | ⟨_, _, _, h⟩ | ⟨_, _, _, h⟩ |
    ⟨_, _, _, _, h⟩ | ⟨_, _, _, _, h⟩ <;> simp [h]

/-- TMR's turn: a dequeue with its `FEED`, an elapse, or nothing (43 R121 to R123). -/
theorem tmrTurn_cases (s : State) :
    (∃ w rest, s.blk.active = true ∧ s.blk.running = false ∧ s.blk.feedFault = false ∧
      s.blk.fifo = w :: rest ∧ tmrTurn s = { s with
        blk := feed s.cfg (holdNext w rest s.blk)
        trace := s.trace ++ [segmentOf (feed s.cfg (holdNext w rest s.blk)) w] }) ∨
    (s.blk.active = true ∧ s.blk.running = true ∧ s.blk.feedFault = false ∧
      tmrTurn s = elapseStep s) ∨
    (dequeueEnabled s.blk = false ∧ elapseEnabled s.blk = false ∧ tmrTurn s = s) := by
  cases hd : dequeueEnabled s.blk with
  | true =>
    left
    simp only [dequeueEnabled, Bool.and_eq_true, Bool.not_eq_true', List.isEmpty_eq_false_iff] at hd
    obtain ⟨⟨⟨ha, hr⟩, hf⟩, hx⟩ := hd
    obtain ⟨w, rest, hq⟩ := List.exists_cons_of_ne_nil hf
    exact ⟨w, rest, ha, hr, hx, hq, by
      simp [tmrTurn, dequeueEnabled, dequeueStep, fifoPop, ha, hr, hx, hq]⟩
  | false =>
    right
    cases he : elapseEnabled s.blk with
    | true =>
      left
      have he' := he
      simp only [elapseEnabled, Bool.and_eq_true, Bool.not_eq_true'] at he'
      exact ⟨he'.1.1, he'.1.2, he'.2, by simp [tmrTurn, hd, he]⟩
    | false => exact .inr ⟨rfl, rfl, by simp [tmrTurn, hd, he]⟩

/-- `SEND` has one outcome (42 R100). -/
theorem sendPrim_done (r : BitVec 16) (v : Bool) (s : State) :
    sendPrim r v s = .done (activate { deactivate s with
      blk := loadSession s.cfg r v (deactivate s).blk }) := rfl

/-- A primitive touches neither `cfg` nor the environment. -/
theorem perform_env {p : Primitive} {s t : State} (h : perform p s = .done t) :
    t.cfg = s.cfg ∧ t.port = s.port ∧ t.agenda = s.agenda ∧ t.response = s.response := by
  have append_env : ∀ d, appendPrim d s = .done t →
      t.cfg = s.cfg ∧ t.port = s.port ∧ t.agenda = s.agenda ∧ t.response = s.response := by
    intro d hd
    rcases appendPrim_cases d s with ⟨_, e⟩ | ⟨_, e⟩ <;> rw [e] at hd <;> cases hd
    exact ⟨rfl, rfl, rfl, rfl⟩
  have add_env : ∀ x, addPrim x s = .done t →
      t.cfg = s.cfg ∧ t.port = s.port ∧ t.agenda = s.agenda ∧ t.response = s.response := by
    intro x hx
    rcases addPrim_cases x s with ⟨_, e⟩ | ⟨_, _, e⟩ | ⟨_, _, e⟩ | ⟨_, _, _, _, e⟩ | ⟨_, _, _, _, e⟩
      <;> rw [e] at hx <;> cases hx
    exact ⟨rfl, rfl, rfl, rfl⟩
  cases p with
  | bufrst => cases h; exact ⟨rfl, rfl, rfl, rfl⟩
  | append d => exact append_env d h
  | encodeBit want =>
    simp only [perform, encodeBitPrim] at h
    split at h
    · exact add_env _ h
    · exact append_env _ h
  | send r v => cases h; exact ⟨rfl, rfl, rfl, rfl⟩

/-- What holds of the state, whatever the environment and the response, through the primitives, TMR's
turns and RESET. -/
structure Kept (P : State → Prop) : Prop where
  perform : ∀ p s t, P s → Machine.perform p s = .done t → P t
  tmr : ∀ s, P s → P (tmrTurn s)
  reset : ∀ s, P s → P (resetTurn s)
  env : ∀ s port agenda response, P s →
    P { s with port := port, agenda := agenda, response := response }

variable {P : State → Prop}

theorem interlude_keeps (k : Kept P) (l : List Turn) (s : State) (h : P s) :
    P (interlude l s).1 := by
  induction l generalizing s with
  | nil => exact k.env s s.port [] s.response h
  | cons τ rest ih =>
    cases τ with
    | host => exact k.env s s.port rest s.response h
    | tmr => exact ih _ (k.tmr s h)
    | reset => exact k.env (resetTurn s) s.port rest none (k.reset s h)

theorem finish_keeps (k : Kept P) {s t : State} {e : Effect} (h : P s)
    (hd : ∀ u, e = .done u → P u) (ht : finish s e = .next t) : P t := by
  cases e with
  | done u => cases ht; exact k.env u u.port u.agenda _ (hd u rfl)
  | raises f => cases ht; exact k.env s s.port s.agenda _ h
  | stops f => cases ht

/-- The induction over a composite, once: what primitives, TMR's turns and RESET keep, it keeps. -/
theorem runComposite_keeps (k : Kept P) (ps : List Primitive) {s t : State} (h : P s)
    (ht : runComposite ps s = .next t) : P t := by
  induction ps generalizing s with
  | nil => cases ht; exact k.env s s.port s.agenda _ h
  | cons p rest ih =>
    cases rest with
    | nil => exact finish_keeps k h (fun u hu => k.perform p s u h hu) ht
    | cons q rest =>
      simp only [runComposite] at ht
      cases hp : perform p s with
      | done u =>
        simp only [hp] at ht
        have hu := interlude_keeps k u.agenda u (k.perform p s u h hp)
        cases hi : interlude u.agenda u with
        | mk x go =>
          simp only [hi] at ht hu
          cases go with
          | true => exact ih hu ht
          | false => cases ht; exact hu
      | raises f => rw [hp] at ht; cases ht; exact k.env s s.port s.agenda _ h
      | stops f => rw [hp] at ht; cases ht

/-- The induction over every command, once. -/
theorem exec_keeps (k : Kept P)
    (ka : ∀ x s t, P s → addPrim x s = .done t → P t)
    (kc : ∀ s t, P s → cancelPrim s = .done t → P t)
    (i : Instr) {s t : State} (h : P s) (ht : exec i s = .next t) : P t := by
  cases i with
  | transmit a c g => exact runComposite_keeps k _ h ht
  | encode a c g => exact runComposite_keeps k _ h ht
  | bufrst => exact finish_keeps k h (fun u hu => k.perform .bufrst s u h hu) ht
  | append d => exact finish_keeps k h (fun u hu => k.perform (.append d) s u h hu) ht
  | add x => exact finish_keeps k h (fun u hu => ka x s u h hu) ht
  | trigger => exact runComposite_keeps k _ h ht
  | send r v => exact finish_keeps k h (fun u hu => k.perform (.send r v) s u h hu) ht
  | busy => cases ht; exact k.env s s.port s.agenda _ h
  | cancel => exact finish_keeps k h (fun u hu => kc s u h hu) ht

/-- The induction over a step, once: what every atomic step keeps, a step keeps. -/
theorem step_keeps (k : Kept P)
    (ka : ∀ x s t, P s → addPrim x s = .done t → P t)
    (kc : ∀ s t, P s → cancelPrim s = .done t → P t)
    {s t : State} (h : P s) (ht : step s = .next t) : P t := by
  have word : ∀ w u, P u → acceptWord w u = .next t → P t := by
    intro w u hu hw
    simp only [acceptWord] at hw
    split at hw
    · exact exec_keeps k ka kc _ hu hw
    · cases hw; exact k.env u u.port u.agenda _ hu
  simp only [step, nextTurn] at ht
  split at ht
  · simp only [defaultTurn] at ht
    split at ht
    · cases ht; exact k.tmr s h
    · exact word _ _ (k.env s _ s.agenda s.response h) ht
  · rename_i rest _
    simp only [hostTurn] at ht
    split at ht
    · cases ht; exact k.env s s.port rest s.response h
    · exact word _ _ (k.env s _ rest s.response h) ht
  · rename_i rest _
    cases ht; exact k.tmr _ (k.env s s.port rest s.response h)
  · rename_i rest _
    cases ht; exact k.reset _ (k.env s s.port rest s.response h)

end Sys2Proof.Machine
end

