-- ==== Sys2Proof/Laws/PerInstr.lean ====
section
/-! SUPPORT. Statements about every command as syntax, one lemma per constructor. -/

namespace Sys2Proof.Laws.EncodedWordSelectsRow

/-- The word of a well-formed command selects the row of the opcode table it stands for (30 R66). -/
def Statement (i : Instr) : Prop := i.wf = true → i.row.selects (encode i) = true

/-- A mask of ones over zeros keeps the upper field and clears the lower. -/
theorem mask_upper {n m : Nat} (hi : BitVec n) (lo : BitVec m) :
    (hi ++ lo) &&& (BitVec.allOnes n ++ 0#m) = hi ++ 0#m := by
  rw [BitVec.and_append, BitVec.and_allOnes, BitVec.and_zero]

/-- A mask of fields over one more field of zeros clears that field. -/
theorem mask_append {n m : Nat} (hi mask : BitVec n) (lo : BitVec m) :
    (hi ++ lo) &&& (mask ++ 0#m) = (hi &&& mask) ++ 0#m := by
  rw [BitVec.and_append, BitVec.and_zero]

theorem frame_word (hi : BitVec 19) (g : BitVec 1) (a : BitVec 5) (c : BitVec 7) :
    (hi ++ g ++ a ++ c) &&& (BitVec.allOnes 19 ++ 0#1 ++ 0#5 ++ 0#7) =
      hi ++ 0#1 ++ 0#5 ++ 0#7 := by
  rw [mask_append, mask_append, mask_upper]

theorem transmit (a : BitVec 5) (c : BitVec 7) (g : Bool) : Statement (.transmit a c g) :=
  fun _ => beq_iff_eq.mpr (frame_word (0x1#4 ++ 0#15) (BitVec.ofBool g) a c)

theorem encode (a : BitVec 5) (c : BitVec 7) (g : Bool) : Statement (.encode a c g) :=
  fun _ => beq_iff_eq.mpr (frame_word (0x2#4 ++ 0#15) (BitVec.ofBool g) a c)

theorem bufrst : Statement .bufrst := fun _ => rfl

theorem append (d : Entry) : Statement (.append d) :=
  fun _ => beq_iff_eq.mpr (mask_upper (0x4#4 ++ 0#12) d)

theorem add (t : Int) : Statement (.add t) :=
  fun _ => beq_iff_eq.mpr (mask_upper (0x5#4 ++ 0#11) (BitVec.ofInt 17 t))

theorem trigger : Statement .trigger := fun _ => rfl

theorem send (r : BitVec 16) (v : Bool) : Statement (.send r v) := fun _ => by
  have h : (0x7#4 ++ 0#11 ++ BitVec.ofBool v ++ r) &&& (BitVec.allOnes 15 ++ 0#1 ++ 0#16) =
      0x7#4 ++ 0#11 ++ 0#1 ++ 0#16 := by
    rw [mask_append, mask_upper]
  exact beq_iff_eq.mpr h

theorem busy : Statement .busy := fun _ => rfl

theorem cancel : Statement .cancel := fun _ => rfl

end Sys2Proof.Laws.EncodedWordSelectsRow
end

