-- ==== Sys2Proof/Tests/Slice0.lean ====
section
/-! SUPPORT. The model's own tests: decoding of words written out from 30 R66, ill-formed operands, one
step of each command against spec/95_test_vectors.md, and states that meet the hypotheses of the
statements. -/

namespace Sys2Proof.Tests

open Sys2Proof.Machine

/-- The state of a next outcome. -/
def nextOf : Host.Outcome State Fault Refusal → State
  | .next s => s
  | .fault _ => State.reset
  | .refused _ => State.reset

/-- The outcome is a next state. -/
def isNext : Host.Outcome State Fault Refusal → Bool
  | .next _ => true
  | .fault _ => false
  | .refused _ => false

theorem eq_next_of_isNext {o : Host.Outcome State Fault Refusal} (h : isNext o = true) :
    o = .next (nextOf o) := by
  cases o <;> first | rfl | cases h

/-- The reset state with another block. -/
def withBlk (b : Block) : State := { State.reset with blk := b }

/-- A buffer of `n` entries 100, pointer behind them. -/
def filled (n : Nat) : State :=
  withBlk { State.reset.blk with
    arr := (List.range n).map fun k => (k, 100#16), aptr := n
    carrier := if n % 2 = 1 then .on else .off }

/-- A session of two entries 100 200 with `reps`, as `SEND` leaves it. -/
def primed (reps : BitVec 16) : State :=
  withBlk { State.reset.blk with
    arr := [(0, 100#16), (1, 200#16)], aptr := 2, reps := reps, icm := 2, apt := 2, started := true,
    active := true, fifo := [100#32, 200#32] }

/-- The same after its first dequeue with `reps = 1`: the value 100 is held. -/
def holding : State :=
  { primed 1#16 with
    blk := { (primed 1#16).blk with
      fifo := [200#32], running := true, cur := 100#32, pin := true, phase := .Y, level := .on,
      ict := 1 }
    trace := [⟨true, .on, 100#32, false⟩] }

/-! ### Decoding of words written out from the patterns of 30 R66 -/

theorem test_decode_transmit :
    decode 0b00010000000000000000100000010000#32 = .ok (.transmit 16 16 false) := by decide
theorem test_decode_encode :
    decode 0b00100000000000000001001010110101#32 = .ok (.encode 5 53 true) := by decide
theorem test_decode_bufrst :
    decode 0b00110000000000000000000000000000#32 = .ok .bufrst := by decide
theorem test_decode_append :
    decode 0b01000000000000001111111111111111#32 = .ok (.append 65535) := by decide
theorem test_decode_add :
    decode 0b01010000000000010000000000000000#32 = .ok (.add (-65536)) := by decide
theorem test_decode_trigger :
    decode 0b01100000000000000000000000000000#32 = .ok .trigger := by decide
theorem test_decode_send :
    decode 0b01110000000000001111111111111111#32 = .ok (.send 65535 false) := by decide
theorem test_decode_busy :
    decode 0b10000000000000000000000000000000#32 = .ok .busy := by decide
theorem test_decode_cancel :
    decode 0b10010000000000000000000000000000#32 = .ok .cancel := by decide

/-- V42, V43, V51 of 95: words that select no command. -/
theorem test_decode_rejects :
    decode 0xFFFFFFFF#32 = .error .reservedOpcode ∧
    decode 0x10002000#32 = .error .mustBeZeroBitSet ∧
    decode 0x90000100#32 = .error .mustBeZeroBitSet := by decide

/-- V29, V32 of 95. -/
theorem test_encode_words :
    encode (.add (-1)) = 0x5001FFFF#32 ∧ encode (.send 1 true) = 0x70010001#32 := by decide

/-- An `ADD` operand outside 17 bits is refused, the extremes are not. -/
theorem test_add_operand_range :
    Instr.wf (.add 65536) = false ∧ Instr.wf (.add (-65537)) = false ∧
    Instr.wf (.add 65535) = true ∧ Instr.wf (.add (-65536)) = true := by decide

/-! ### One command each, against the vectors of spec/95 -/

/-- V53, V102: `TRANSMIT 16, 17, 0` from reset, its last entries, the padding, the session. -/
theorem test_transmit_voldn :
    let t := nextOf (exec (.transmit 16 17 false) State.reset)
    t.blk.aptr = 22 ∧ t.blk.icm = 22 ∧ t.blk.fifo = [1778#32, 1778#32, 889#32, 889#32] ∧
    t.blk.arr.read 19 = 1778#16 ∧ t.blk.arr.read 21 = 1#16 ∧ t.blk.arr.read 22 = 0#16 := by decide

/-- V64: the shortest frame. -/
theorem test_encode_shortest :
    let t := nextOf (exec (.encode 10 42 false) State.reset)
    t.blk.aptr = 14 ∧ t.blk.carrier = .off ∧ t.blk.arr.read 12 = 1778#16 ∧
    t.blk.arr.read 13 = 889#16 := by decide

/-- V74: the other field order. -/
theorem test_encode_rc5std :
    let s := { State.reset with cfg := { Cfg.default with fieldOrder := .rc5std } }
    (nextOf (exec (.encode 10 85 true) s)).blk.aptr = 15 := by decide

/-- V94. -/
theorem test_bufrst :
    let t := nextOf (exec .bufrst (filled 21))
    t.blk.aptr = 0 ∧ t.blk.carrier = .off ∧ t.blk.arr.read 20 = 100#16 := by decide

/-- V95, V96. -/
theorem test_append_last_slot :
    (nextOf (exec (.append 100) (filled 28))).blk.aptr = 29 ∧
    (nextOf (exec (.append 100) (filled 29))).response = faultResponse (.bufferOverflow 29) := by
  decide

/-- V90, V91 with 100 for 65000. -/
theorem test_add_largest_sum :
    (nextOf (exec (.add 65435) (filled 1))).blk.arr.read 0 = 65535#16 ∧
    (nextOf (exec (.add 65436) (filled 1))).response = faultResponse (.entryOverflow 65536) := by
  decide

/-- V88: the sign test comes before the pointer test. -/
theorem test_add_check_order :
    (nextOf (exec (.add 0) State.reset)).response = faultResponse (.precondition 0) ∧
    (nextOf (exec (.add 100) State.reset)).response = faultResponse .noEntry := by decide

/-- V168 and V103. -/
theorem test_trigger :
    (nextOf (exec .trigger (filled 29))).response = faultResponse (.bufferOverflow 29) ∧
    (nextOf (exec .trigger State.reset)).blk.icm = 0 := by decide

/-- V122, V124: the end of the buffer. -/
theorem test_send_end_of_buffer :
    (nextOf (exec (.send 1 true) (filled 27))).blk.arr.read 27 = 1#16 ∧
    (nextOf (exec (.send 1 true) (filled 29))).blk.icm = 28 := by decide

/-- V137, V138. -/
theorem test_busy :
    (nextOf (exec .busy State.reset)).response = some ⟨.ok, false⟩ ∧
    (nextOf (exec .busy (primed 1#16))).response = some ⟨.ok, true⟩ := by decide

/-- V145. -/
theorem test_cancel : (nextOf (exec .cancel (primed 0#16))).blk.reps = 1#16 := by decide

/-- P12, step 1: the repeat branch. -/
theorem test_feed_repeat :
    let t := tmrTurn (primed 2#16)
    t.blk.ict = 1 ∧ t.blk.apt = 1 ∧ t.blk.reps = 1#16 ∧ t.blk.fifo = [200#32, 100#32] ∧
    t.trace = [⟨true, .on, 100#32, false⟩] := by decide

/-- V158: a `SEND` truncates the segment in progress and keeps the level. -/
theorem test_send_preempts :
    let t := nextOf (exec (.send 1 true) holding)
    t.trace = [⟨true, .on, 100#32, true⟩] ∧ t.blk.level = .on ∧ t.blk.running = false := by decide

/-- V166: a composite stops at its first faulting primitive, what it wrote stays. -/
theorem test_composite_fault :
    let t := nextOf (exec (.encode 31 63 true) (filled 10))
    t.response = faultResponse (.bufferOverflow 29) ∧ t.blk.aptr = 29 ∧
    t.blk.arr.read 28 = 889#16 := by decide

/-- The first step after reset runs the word that is placed. -/
theorem test_first_step :
    (nextOf (step (State.reset.withFetchWord 32 0x400001F4))).blk.arr.read 0 = 500#16 := by decide

/-! ### States that meet the hypotheses of the statements -/

/-- `StepRunsDecodedCommand`, both agendas. -/
theorem witness_decoded_command :
    decode 0x90000000#32 = .ok .cancel ∧
    (offerWord 0x90000000#32 State.reset).port = 0x90000000#32 :: [] ∧
    (offerWord 0x90000000#32 State.reset).agenda = .host :: [] ∧
    State.reset.agenda = [] := by decide

/-- `IllegalWordChangesNothing`: each of its three kinds of word. -/
theorem witness_illegal_words :
    (opcode 0x00000000#32).toNat = 0 ∧ 10 ≤ (opcode 0xA0000000#32).toNat ∧
    (opcode 0x10002000#32 = opcode (Instr.transmit 0 0 false).row.pattern ∧
      0x10002000#32 &&& (Instr.transmit 0 0 false).row.mask ≠
        (Instr.transmit 0 0 false).row.pattern) ∧
    (offerWord 0x10002000#32 State.reset).port = 0x10002000#32 :: [] ∧
    (offerWord 0x10002000#32 State.reset).agenda = .host :: [] := by decide

/-- `DecodeOfEncode`, `RowsAreDisjoint`, `FrameFieldBits`. -/
theorem witness_encoding :
    Instr.wf (.add (-65536)) = true ∧
    (Instr.send 1 true).row.selects 0x7001FFFF#32 = true ∧
    (Instr.send 0 false).row.selects 0x7001FFFF#32 = true ∧
    (FieldOrder.doc = .doc ∧ FieldOrder.rc5std = .rc5std) := by decide

/-- `ResetInputFromAnyState`, from a state with a value held. -/
theorem witness_reset_input :
    ({ holding with agenda := [.reset, .host] } : State).agenda = .reset :: [.host] := by decide

/-- `StepKeepsInvariant`, `StepNeverStops`: a state in the midst of a playback has the invariant, and a
step from it answers a next state. -/
theorem witness_invariant : Inv holding ∧ step holding = .next (nextOf (step holding)) := by
  have widened : ∀ w ∈ holding.blk.fifo, w.toNat ≤ entryMax := by simp [holding, entryMax]
  refine ⟨⟨Cfg.default_legal, by decide, by decide, by decide, by decide, by decide, by decide,
    by decide, by decide, by decide, by decide, by decide, by decide, by decide, widened, by decide⟩,
    eq_next_of_isNext (by decide)⟩

/-- `ConfigurationIsFixed`, `StepIsAtomicSteps`: a step that answers a next state. -/
theorem witness_step : step (primed 2#16) = .next (nextOf (step (primed 2#16))) :=
  eq_next_of_isNext (by decide)

/-- `AppendResult`: the two clauses at the boundary. -/
theorem witness_append : (filled 28).blk.aptr < CAP ∧ CAP ≤ (filled 29).blk.aptr := by decide

/-- `AddResult`: each of the four clauses, at a boundary. -/
theorem witness_add :
    (filled 29).blk.aptr ≤ CAP ∧ (0 : Int) ≤ 0 ∧ (0 : Int) < 1 ∧ State.reset.blk.aptr = 0 ∧
    0 < (filled 29).blk.aptr ∧
    65535 < (((filled 29).blk.arr.read 28).toNat : Int) + 65436 ∧
    (((filled 29).blk.arr.read 28).toNat : Int) + 65435 ≤ 65535 := by decide

/-- `TriggerResult`: both clauses at the boundary, TMR and host moving, or the host only. -/
theorem witness_trigger :
    (filled 28).blk.aptr < CAP ∧ noReset [Turn.tmr, Turn.tmr, Turn.host] ∧
    hostOnly [Turn.host] ∧ noReset [Turn.host] ∧ CAP ≤ (filled 29).blk.aptr := by decide

/-- The statements about `ENCODE` from an empty buffer and about `TRANSMIT`. -/
theorem witness_encode :
    State.reset.blk.aptr = 0 ∧ State.reset.blk.carrier = .off ∧ noReset State.reset.agenda ∧
    hostOnly State.reset.agenda ∧ (0 ≤ 13 ∧ 13 ≤ 13) := by decide

/-- `EncodeFromAnyPointer`, at both ends. -/
theorem witness_encode_any :
    State.reset.blk.aptr ≤ CAP ∧ (filled 29).blk.aptr ≤ CAP ∧ noReset (filled 29).agenda := by decide

/-- `CompositeAdmitsTmrTurns`: two TMR turns between the primitives of `TRIGGER`. -/
theorem witness_composite_turns :
    let s := { State.reset with agenda := [.tmr, .tmr, .host] }
    (∃ t, perform (.append STOP) s = .done t) ∧
    s.agenda = List.replicate 2 .tmr ++ .host :: [] := ⟨⟨_, rfl⟩, rfl⟩

/-- `ResetAbandonsComposite`. -/
theorem witness_composite_reset :
    let s := { State.reset with agenda := [.reset] }
    (∃ t, perform .bufrst s = .done t) ∧ s.agenda = .reset :: [] := ⟨⟨_, rfl⟩, rfl⟩

/-- `SendSession`: its clauses on a held value. -/
theorem witness_send :
    (primed 1#16).blk.running = false ∧ holding.blk.running = true ∧
    holding.trace = [] ++ [⟨true, .on, 100#32, false⟩] := by decide

/-- `SendLeavesEvenLength`, with the length found odd. -/
theorem witness_send_even :
    (filled 27).cfg.legal ∧
    exec (.send 1 true) (filled 27) = .next (nextOf (exec (.send 1 true) (filled 27))) :=
  ⟨Cfg.default_legal, rfl⟩

/-- `CancelAgainstFeed`. -/
theorem witness_cancel_feed :
    let s := primed 3#16
    s.blk.active = true ∧ s.blk.running = false ∧ s.blk.feedFault = false ∧
    s.blk.fifo = 100#32 :: [200#32] ∧ s.blk.apt < CAP ∧ s.blk.arr.read s.blk.apt = STOP ∧
    [200#32].length < s.cfg.fifoDepth ∧ s.blk.reps ≠ 1#16 ∧ s.blk.reps ≠ 0#16 := by decide

/-- A state about to dequeue, for `DequeueRunsFeed`. -/
def dequeuing (apt : Nat) (reps : BitVec 16) (depth : Nat) : State :=
  { primed reps with
    agenda := [.tmr], cfg := { Cfg.default with fifoDepth := depth }
    blk := { (primed reps).blk with apt := apt } }

/-- `DequeueRunsFeed`: its hypotheses, and each of its six branches. -/
theorem witness_dequeue :
    ((dequeuing 1 1#16 4).agenda = .tmr :: [] ∧ (dequeuing 1 1#16 4).blk.active = true ∧
      (dequeuing 1 1#16 4).blk.running = false ∧ (dequeuing 1 1#16 4).blk.feedFault = false ∧
      (dequeuing 1 1#16 4).blk.fifo = 100#32 :: [200#32]) ∧
    CAP ≤ (dequeuing 29 1#16 4).blk.apt ∧
    ((dequeuing 1 1#16 2).blk.apt < CAP ∧ (dequeuing 1 1#16 2).blk.arr.read 1 ≠ STOP ∧
      [200#32].length < (dequeuing 1 1#16 2).cfg.fifoDepth) ∧
    ¬ [200#32].length < (dequeuing 1 1#16 1).cfg.fifoDepth ∧
    ((dequeuing 28 1#16 4).blk.apt < CAP ∧ (dequeuing 28 1#16 4).blk.arr.read 28 = STOP ∧
      (dequeuing 28 1#16 4).blk.reps = 1#16) ∧
    ((dequeuing 2 0#16 2).blk.reps ≠ 1#16 ∧ (dequeuing 2 0#16 2).blk.arr.read 2 = STOP) := by decide

/-- `ElapseResult` with a value queued. -/
theorem witness_elapse :
    let s := { holding with agenda := [Turn.tmr] }
    s.agenda = .tmr :: [] ∧ s.blk.active = true ∧ s.blk.running = true ∧
    s.blk.feedFault = false ∧ s.blk.fifo ≠ [] := by decide

/-- `StalledTurnChangesNothing`: inactive, stalled, stuck. -/
theorem witness_stalled :
    State.reset.blk.active = false ∧ (State.reset.blk.running = false ∧ State.reset.blk.fifo = []) ∧
    (raiseFeedFault holding.blk).feedFault = true ∧
    ({ State.reset with agenda := [.tmr] } : State).agenda = .tmr :: [] := by decide

/-- `FeedFaultSticksUntilReset`, on a state whose step is a `SEND`. -/
theorem witness_feed_fault :
    let s := { (withBlk (raiseFeedFault holding.blk)) with port := [0x70010001#32] }
    s.blk.feedFault = true ∧ noReset s.agenda ∧ step s = .next (nextOf (step s)) :=
  ⟨by decide, by decide, eq_next_of_isNext (by decide)⟩

/-- `HostWritesOnlyItsElements`: a command of each kind. -/
theorem witness_host_writes :
    hostOnly holding.agenda ∧ exec .cancel holding = .next (nextOf (exec .cancel holding)) ∧
    beginsSession .cancel = false ∧ movesPointer .cancel = false ∧
    beginsSession (.append 1) = false ∧ Instr.append 1 ≠ .cancel :=
  ⟨by decide, rfl, rfl, rfl, rfl, by decide⟩

/-- `CarrierOutputTable`: its clauses. -/
theorem witness_carrier :
    holding.blk.level = .on ∧ (State.reset.blk.level = .off ∧ State.reset.cfg.activeLow = false) ∧
    (let s := { State.reset with cfg := { Cfg.default with activeLow := true } }
     s.blk.level = .off ∧ s.cfg.activeLow = true) := by decide

/-- The on duty is the configured one: 1 and 100 percent, both legal. -/
theorem test_carrier_on_duty :
    let at1 := { holding with cfg := { Cfg.default with dutyOnPct := 1 } }
    let at100 := { holding with cfg := { Cfg.default with dutyOnPct := 100 } }
    at1.output.dutyPct = 1 ∧ at1.cfg.legal ∧ at100.output.dutyPct = 100 ∧ at100.cfg.legal := by
  decide

/-- The statements about whole playbacks: two entries, any number of frames. -/
theorem witness_playback (n : BitVec 16) :
    unattended (filled 2) ∧ (filled 2).blk.feedFault = false ∧ (filled 2).cfg.legal ∧
    exec (.send n true) (filled 2) = .next (nextOf (exec (.send n true) (filled 2))) ∧
    0 < (nextOf (exec (.send n true) (filled 2))).blk.icm :=
  ⟨by decide, by decide, Cfg.default_legal, rfl, by
    have : (nextOf (exec (.send n true) (filled 2))).blk.icm = 2 := rfl
    omega⟩

/-- The run of one frame of two entries. -/
theorem witness_playback_run :
    let t := nextOf (exec (.send 1 true) (filled 2))
    (1 : BitVec 16) ≠ 0#16 ∧ 2 ≤ t.blk.icm ∧ 1 < t.blk.icm ∧ t.blk.icm % 2 = 0 ∧
    Host.Core.run Sys2Proof.core (2 * ((1 : BitVec 16).toNat * t.blk.icm)) t =
      .next (nextOf (Host.Core.run Sys2Proof.core (2 * ((1 : BitVec 16).toNat * t.blk.icm)) t)) ∧
    Host.Core.run Sys2Proof.core (2 * t.blk.icm) t =
      .next (nextOf (Host.Core.run Sys2Proof.core (2 * t.blk.icm) t)) :=
  ⟨by decide, by decide, by decide, by decide, eq_next_of_isNext (by decide),
    eq_next_of_isNext (by decide)⟩

/-- `EventCountTable`: the last entry of the last of two frames, and any frame of an infinite playback;
entry 0 starts a repeat in frame 0 of 2 and none in frame 1. -/
theorem witness_event_count (f : Nat) :
    let t := nextOf (exec (.send 2 true) (filled 2))
    1 < t.blk.icm ∧ 1 < (2#16).toNat ∧ (0#16 = 0#16 ∨ f < (0#16).toNat) ∧
    (0 = t.blk.icm - min t.blk.icm 4 ∧ 0 + 1 < (2#16).toNat) ∧
    ¬ (0 = t.blk.icm - min t.blk.icm 4 ∧ 1 + 1 < (2#16).toNat) :=
  ⟨by decide, by decide, .inl rfl, by decide, by decide⟩

/-- P4 of 96, `SEND 3, 1` of six entries: the counts the table gives on entry to its steps 8, 9, 10 and 18. -/
theorem test_count_table :
    countOnEntry 6 3#16 1 1 = 5 ∧ countOnEntry 6 3#16 1 2 = 6 ∧ countOnEntry 6 3#16 1 3 = 1 ∧
    countOnEntry 6 3#16 2 5 = 9 := by decide

/-- `CancelledPlaybackEnds`, with a value held and one queued. -/
theorem witness_cancelled :
    unattended holding ∧ holding.cfg.legal ∧ holding.blk.active = true ∧
    holding.blk.feedFault = false ∧ inLiveEntries holding.blk ∧ holding.blk.fifo.length ≤ 4 ∧
    (holding.blk.fifo = [] → holding.blk.apt = holding.blk.icm) ∧
    exec .cancel holding = .next (nextOf (exec .cancel holding)) :=
  ⟨by decide, Cfg.default_legal, by decide, by decide, by decide, by decide, by decide, rfl⟩

/-- `DriverStateMachine`: `SEND` of an empty and of a non-empty sequence, a dequeue, a repeat, a stall,
a Repeating block; `Inv` holds of `holding` by `witness_invariant`. -/
theorem witness_driver_states :
    (nextOf (exec (.send 1 true) State.reset)).blk.icm = 0 ∧
    0 < (nextOf (exec (.send 1 true) (filled 2))).blk.icm ∧
    dequeueEnabled (primed 1#16).blk = true ∧
    (takesRepeat (primed 2#16).blk = true ∧ (primed 2#16).blk.fifo.length ≤ (primed 2#16).cfg.fifoDepth) ∧
    isRepeating (tmrTurn (primed 2#16)).blk = true ∧
    (let b := { (primed 1#16).blk with fifo := [] }
     b.active = true ∧ b.running = false ∧ b.fifo = []) := by decide

/-- `RepeatingFollowsTheRepeatBranch`: a `SEND`, a command of the others, a `CANCEL` before a repeat. -/
theorem witness_repeating :
    exec (.send 2 true) (filled 2) = .next (nextOf (exec (.send 2 true) (filled 2))) ∧
    exec .cancel (primed 2#16) = .next (nextOf (exec .cancel (primed 2#16))) ∧
    beginsSession .cancel = false ∧ hostOnly (primed 2#16).agenda ∧
    (primed 2#16).blk.fifo.length ≤ (primed 2#16).cfg.fifoDepth :=
  ⟨rfl, rfl, rfl, by decide, by decide⟩

end Sys2Proof.Tests
end

/-! ## The layer of facts: what each operation writes and leaves -/

namespace Sys2Proof.Machine

/-- TMR's turn by fields, the columns of the interrupt in 10 R31 and what lies outside the block. -/
theorem tmrTurn_frame (s : State) :
    (tmrTurn s).blk.arr = s.blk.arr ∧ (tmrTurn s).blk.aptr = s.blk.aptr ∧
    (tmrTurn s).blk.carrier = s.blk.carrier ∧ (tmrTurn s).blk.icm = s.blk.icm ∧
    (tmrTurn s).blk.started = s.blk.started ∧ (tmrTurn s).blk.active = s.blk.active ∧
    (tmrTurn s).cfg = s.cfg ∧ (tmrTurn s).port = s.port ∧ (tmrTurn s).agenda = s.agenda ∧
    (tmrTurn s).response = s.response := by
  rcases tmrTurn_cases s with ⟨w, rest, _, _, _, _, e⟩ | ⟨_, _, _, e⟩ | ⟨_, _, e⟩
  · simp [e, feed_frame]
  · simp [e]
  · simp [e]

/-- The dequeue step, from the elements that enable it (43 R121). -/
theorem tmrTurn_of_queued {s : State} {w : Ticks} {rest : List Ticks} (ha : s.blk.active = true)
    (hr : s.blk.running = false) (hf : s.blk.feedFault = false) (hq : s.blk.fifo = w :: rest) :
    tmrTurn s = { s with
      blk := feed s.cfg (holdNext w rest s.blk)
      trace := s.trace ++ [segmentOf (feed s.cfg (holdNext w rest s.blk)) w] } := by
  simp [tmrTurn, dequeueEnabled, dequeueStep, fifoPop, ha, hr, hf, hq]

/-- The elapse step, from the elements that enable it (43 R122). -/
theorem tmrTurn_of_running {s : State} (ha : s.blk.active = true) (hr : s.blk.running = true)
    (hf : s.blk.feedFault = false) : tmrTurn s = elapseStep s := by
  simp [tmrTurn, dequeueEnabled, elapseEnabled, ha, hr, hf]

/-- Stuck on `feed_fault`, TMR has no enabled step (60 R137). -/
theorem tmrTurn_of_feedFault {s : State} (hf : s.blk.feedFault = true) : tmrTurn s = s := by
  simp [tmrTurn, dequeueEnabled, elapseEnabled, hf]

/-- `FEED` on the count, the fetch index and the queue: it counts; or it queues an entry and advances;
or it restarts both at 1 and queues an entry (42 R105, R107). -/
theorem feed_queue (cfg : Cfg) (b : Block) :
    ((feed cfg b).ict = b.ict + 1 ∧ (feed cfg b).apt = b.apt ∧ (feed cfg b).fifo = b.fifo) ∨
    ((feed cfg b).ict = b.ict + 1 ∧ (feed cfg b).apt = b.apt + 1 ∧ b.apt < CAP ∧
      ∃ e, (feed cfg b).fifo = b.fifo ++ [widen e]) ∨
    ((feed cfg b).ict = 1 ∧ (feed cfg b).apt = 1 ∧ ∃ e, (feed cfg b).fifo = b.fifo ++ [widen e]) := by
  rcases feed_cases cfg b with ⟨_, e⟩ | ⟨hc, _, _, e⟩ | ⟨_, _, _, e⟩ | ⟨_, _, _, e⟩ |
    ⟨_, _, _, _, e⟩ | ⟨_, _, _, _, e⟩ <;> rw [e]
  · exact .inl ⟨rfl, rfl, rfl⟩
  · exact .inr (.inl ⟨rfl, rfl, hc, _, rfl⟩)
  · exact .inl ⟨rfl, rfl, rfl⟩
  · exact .inl ⟨rfl, rfl, rfl⟩
  · exact .inr (.inr ⟨rfl, rfl, _, rfl⟩)
  · exact .inl ⟨rfl, rfl, rfl⟩

/-- A widened entry is at most the largest entry (20 R49). -/
theorem widen_toNat_le (e : Entry) : (widen e).toNat ≤ entryMax := by
  have he : e.toNat < 65536 := e.isLt
  simp only [widen, BitVec.toNat_setWidth, entryMax]
  omega

/-- A flip exchanges the polarities. -/
theorem flip_eq_on (p : OnOff) : p.flip = .on ↔ ¬ p = .on := by cases p <;> decide

/-- The pin a dequeue sets is asserted exactly when it leaves phase Y (43 R121). -/
theorem pinOfPhase_iff_flip (p : Phase) : pinOfPhase p = true ↔ p.flip = .Y := by
  cases p <;> decide

/-- What `ADD` does when it has its effect: one entry inside the buffer is rewritten (41 R92). -/
theorem addPrim_done {x : Int} {s t : State} (h : addPrim x s = .done t) :
    ∃ i v, i < CAP ∧ t = { s with blk := { s.blk with arr := s.blk.arr.write i v } } := by
  rcases addPrim_cases x s with ⟨_, e⟩ | ⟨_, _, e⟩ | ⟨_, _, e⟩ | ⟨_, _, _, _, e⟩ |
    ⟨_, hpos, hcap, _, e⟩ <;> rw [e] at h <;> cases h
  exact ⟨_, _, by omega, rfl⟩

/-- What `APPEND` does when it has its effect (41 R91). -/
theorem appendPrim_done {d : Entry} {s t : State} (h : appendPrim d s = .done t) :
    s.blk.aptr < CAP ∧ t = { s with
      blk := { s.blk with
        arr := s.blk.arr.write s.blk.aptr d, aptr := s.blk.aptr + 1,
        carrier := s.blk.carrier.flip } } := by
  rcases appendPrim_cases d s with ⟨_, e⟩ | ⟨hc, e⟩ <;> rw [e] at h <;> cases h
  exact ⟨hc, rfl⟩

/-- The first primitive of a frame bit is an `ADD` or an `APPEND` (40 R80). -/
theorem encodeBitPrim_cases (want : OnOff) (s : State) :
    encodeBitPrim want s = addPrim tHalf.toNat s ∨ encodeBitPrim want s = appendPrim tHalf s := by
  by_cases h : want ≠ s.blk.carrier
  · exact .inl (by simp [encodeBitPrim, h])
  · exact .inr (by simp [encodeBitPrim, h])

end Sys2Proof.Machine

/-! ## The session `SEND` leaves -/

namespace Sys2Proof.Machine

/-- The state `SEND` answers (42 R100 to R104). -/
def afterSend (r : BitVec 16) (v : Bool) (s : State) : State :=
  (activate { deactivate s with blk := loadSession s.cfg r v (deactivate s).blk }).respondOk

theorem exec_send (r : BitVec 16) (v : Bool) (s : State) :
    exec (.send r v) s = .next (afterSend r v s) := rfl

/-- The buffer with the STOP that step 3 of `SEND` forces (42 R102). -/
theorem read_forceLastStop (m : Memory) (i : Nat) :
    (forceLastStop m).read i = if i = CAP - 1 then STOP else m.read i :=
  Memory.read_write m (CAP - 1) i STOP

theorem forceLastStop_wf {m : Memory} (h : m.wf = true) : (forceLastStop m).wf = true :=
  Memory.write_stop_wf (CAP - 1) h

theorem padsAt_eq_true {v : Bool} {x : Nat} : padsAt v x = true ↔ v = true ∧ x % 2 = 1 := by
  simp [padsAt]

/-- The padding keeps the canonical form: it lies inside the buffer (42 R103). -/
theorem paddedBuffer_wf {m : Memory} (pad : Entry) (v : Bool) {x : Nat} (h : m.wf = true)
    (hx : x < CAP) : (paddedBuffer pad v x m).wf = true := by
  cases hp : padsAt v x with
  | true =>
    simpa [paddedBuffer, hp] using Memory.write_stop_wf (x + 1) (Memory.write_wf pad h hx)
  | false => simpa [paddedBuffer, hp] using h

/-- The padded length stays below `CAP`: an odd index of a STOP is not the last slot (42 R103). -/
theorem paddedLength_lt {v : Bool} {x : Nat} (hx : x ≤ CAP - 1) : paddedLength v x < CAP := by
  simp only [CAP] at hx ⊢
  cases hp : padsAt v x with
  | true =>
    obtain ⟨_, hodd⟩ := padsAt_eq_true.mp hp
    simp only [paddedLength, hp, if_true]
    omega
  | false =>
    simpa [paddedLength, hp] using Nat.lt_succ_of_le hx

end Sys2Proof.Machine

/-! ## Reset, TMR's frame, the configuration -/

namespace Sys2Proof.Proofs

open Sys2Proof.Machine

/-- Settles O9: each element is read off the reset table. -/
theorem resetStateValues : Obligations.ResetStateValues :=
  ⟨Memory.read_nil, rfl, rfl, rfl, rfl, rfl, rfl, rfl, rfl, rfl, rfl, rfl, rfl, rfl, rfl, rfl⟩

/-- Settles O38, by the frame of TMR's turn. -/
theorem tmrWritesOnlyItsElements : Obligations.TmrWritesOnlyItsElements := by
  intro s
  simp only [tmrTurn_frame, and_self]

/-- A configuration is kept by every atomic step (70 R162). -/
theorem kept_cfg (c : Cfg) : Kept fun s => s.cfg = c where
  perform _ _ _ hs h := by
    obtain ⟨hcfg, _⟩ := perform_env h
    exact hcfg.trans hs
  tmr s hs := by simpa only [tmrTurn_frame] using hs
  reset _ hs := hs
  env _ _ _ _ hs := hs

/-- Settles O14, by the induction over a step. -/
theorem configurationIsFixed : Obligations.ConfigurationIsFixed := by
  intro s t ht
  refine step_keeps (kept_cfg s.cfg) ?add ?cancel rfl ht
  case add =>
    intro x u u' hu h
    obtain ⟨_, _, _, rfl⟩ := addPrim_done h
    exact hu
  case cancel =>
    intro u u' hu h
    cases h
    exact hu

end Sys2Proof.Proofs

/-! ## The invariant of every run -/

namespace Sys2Proof.Machine

/-- A block right after reset meets the invariant, under any legal configuration (10 R32, R36). -/
theorem Inv.afterReset {s : State} {cur : Ticks} (hcfg : s.cfg.legal)
    (hblk : s.blk = Block.afterReset cur) : Inv s := by
  obtain ⟨cfg, blk, trace, response, port, agenda, freeIx⟩ := s
  subst hblk
  constructor
  case cfgLegal => exact hcfg
  all_goals simp [Block.afterReset, Memory.wf, Memory.wfFrom]

/-- The buffer, its pointer and its polarity may change as long as they fit each other. -/
theorem Inv.rebuffer {s : State} (hs : Inv s) {arr : Memory} {aptr : Nat} {carrier : OnOff}
    (hwf : arr.wf = true) (hrange : aptr ≤ CAP) (hparity : carrier = .on ↔ aptr % 2 = 1) :
    Inv { s with blk := { s.blk with arr := arr, aptr := aptr, carrier := carrier } } :=
  { hs with arrWf := hwf, aptrRange := hrange, carrierParity := hparity }

theorem Inv.bufrst {s : State} (hs : Inv s) :
    Inv { s with blk := { s.blk with aptr := 0, carrier := .off } } :=
  hs.rebuffer hs.arrWf (Nat.zero_le _) (by decide)

theorem Inv.append {s t : State} {d : Entry} (hs : Inv s) (h : appendPrim d s = .done t) :
    Inv t := by
  obtain ⟨hc, rfl⟩ := appendPrim_done h
  refine hs.rebuffer (Memory.write_wf d hs.arrWf hc) hc ?_
  have hparity := hs.carrierParity
  rw [flip_eq_on, hparity]
  omega

theorem Inv.add {s t : State} {x : Int} (hs : Inv s) (h : addPrim x s = .done t) : Inv t := by
  obtain ⟨i, v, hi, rfl⟩ := addPrim_done h
  exact hs.rebuffer (Memory.write_wf v hs.arrWf hi) hs.aptrRange hs.carrierParity

theorem Inv.cancel {s t : State} (hs : Inv s) (h : cancelPrim s = .done t) : Inv t := by
  cases h
  exact { hs with }

theorem Inv.send {s t : State} {r : BitVec 16} {v : Bool} (hs : Inv s)
    (h : sendPrim r v s = .done t) : Inv t := by
  cases h
  have hx := firstStop_le (forceLastStop s.blk.arr)
  exact
    { cfgLegal := hs.cfgLegal
      arrWf := paddedBuffer_wf _ v (forceLastStop_wf hs.arrWf) (Nat.lt_succ_of_le hx)
      aptrRange := hs.aptrRange
      aptRange := le_trans (Nat.min_le_right _ preloadMax) (by decide)
      icmRange := paddedLength_lt hx
      fifoBound := by simp [loadSession]
      ictBound := by simp [loadSession]
      aptBound := by simp [loadSession]
      freshQueue := by simp [loadSession]
      heldCounted := by simp [loadSession]
      carrierParity := hs.carrierParity
      pinPhase := by simp [loadSession]
      inactiveEmpty := by simp
      activeStarted := fun _ => rfl
      fifoWidened := by
        intro w hw
        obtain ⟨k, _, rfl⟩ := List.mem_map.mp (show w ∈ preload _ _ from hw)
        exact widen_toNat_le _
      heldSegment := by simp [loadSession] }

/-- What a dequeue does to the count, the fetch index and the queue keeps their bounds. -/
theorem Inv.dequeue_bounds {s : State} (hs : Inv s) {w : Ticks} {rest : List Ticks}
    (hq : s.blk.fifo = w :: rest) :
    let b := feed s.cfg (holdNext w rest s.blk)
    b.apt ≤ CAP ∧ b.fifo.length ≤ preloadMax ∧ b.ict + b.fifo.length ≤ b.apt + preloadMax ∧
      b.apt ≤ b.ict + b.fifo.length ∧ b.ict ≠ 0 ∧ ∀ x ∈ b.fifo, x.toNat ≤ entryMax := by
  have hlen : s.blk.fifo.length = rest.length + 1 := by rw [hq]; rfl
  have hfifo := hs.fifoBound
  have hict := hs.ictBound
  have hapt := hs.aptBound
  have hrange := hs.aptRange
  have hpre : preloadMax = 4 := rfl
  have hcap : CAP = 29 := rfl
  have hrest : ∀ x ∈ rest, x.toNat ≤ entryMax := fun x hx =>
    hs.fifoWidened x (hq ▸ List.mem_cons_of_mem w hx)
  have hpush : ∀ e, ∀ x ∈ rest ++ [widen e], x.toNat ≤ entryMax := by
    intro e x hx
    rcases List.mem_append.mp hx with hx | hx
    · exact hrest x hx
    · rw [List.mem_singleton.mp hx]
      exact widen_toNat_le e
  rcases feed_queue s.cfg (holdNext w rest s.blk) with ⟨hi, ha, hf⟩ | ⟨hi, ha, hc, e, hf⟩ |
    ⟨hi, ha, e, hf⟩
  · simp only [hi, ha, hf, holdNext_ict, holdNext_apt, holdNext_fifo]
    exact ⟨by omega, by omega, by omega, by omega, by omega, hrest⟩
  · simp only [hi, ha, hf, holdNext_ict, holdNext_apt, holdNext_fifo, List.length_append,
      List.length_singleton] at hc ⊢
    exact ⟨by omega, by omega, by omega, by omega, by omega, hpush e⟩
  · simp only [hi, ha, hf, holdNext_fifo, List.length_append, List.length_singleton]
    exact ⟨by omega, by omega, by omega, by omega, by omega, hpush e⟩

theorem Inv.dequeue {s : State} (hs : Inv s) {w : Ticks} {rest : List Ticks}
    (hactive : s.blk.active = true) (hq : s.blk.fifo = w :: rest) :
    Inv { s with
      blk := feed s.cfg (holdNext w rest s.blk)
      trace := s.trace ++ [segmentOf (feed s.cfg (holdNext w rest s.blk)) w] } := by
  obtain ⟨hapt, hfifo, hictB, haptB, hict, hwide⟩ := hs.dequeue_bounds hq
  exact
    { cfgLegal := hs.cfgLegal
      arrWf := by simpa [feed_frame] using hs.arrWf
      aptrRange := by simpa [feed_frame] using hs.aptrRange
      aptRange := hapt
      icmRange := by simpa [feed_frame] using hs.icmRange
      fifoBound := hfifo
      ictBound := hictB
      aptBound := haptB
      freshQueue := fun h => absurd h hict
      heldCounted := fun _ => hict
      carrierParity := by simpa [feed_frame] using hs.carrierParity
      pinPhase := by simpa [feed_frame] using pinOfPhase_iff_flip s.blk.phase
      inactiveEmpty := by simp [feed_frame, hactive]
      activeStarted := by simpa [feed_frame] using hs.activeStarted
      fifoWidened := hwide
      heldSegment := by simp [segmentOf, feed_frame] }

theorem Inv.elapse {s : State} (hs : Inv s) (hactive : s.blk.active = true) :
    Inv (elapseStep s) :=
  { hs with
    heldCounted := by simp
    inactiveEmpty := by simp [hactive]
    heldSegment := by simp }

theorem Inv.tmrTurn {s : State} (hs : Inv s) : Inv (Machine.tmrTurn s) := by
  rcases tmrTurn_cases s with ⟨w, rest, ha, _, _, hq, e⟩ | ⟨ha, _, _, e⟩ | ⟨_, _, e⟩
  · rw [e]; exact hs.dequeue ha hq
  · rw [e]; exact hs.elapse ha
  · rw [e]; exact hs

theorem Inv.perform {p : Primitive} {s t : State} (hs : Inv s)
    (h : Machine.perform p s = .done t) : Inv t := by
  cases p with
  | bufrst => cases h; exact hs.bufrst
  | append d => exact hs.append h
  | encodeBit want =>
    rcases encodeBitPrim_cases want s with e | e
    · exact hs.add (e.symm.trans h)
    · exact hs.append (e.symm.trans h)
  | send r v => exact hs.send h

/-- The invariant is kept by every atomic step. -/
theorem kept_inv : Kept Inv where
  perform _ _ _ hs h := hs.perform h
  tmr _ hs := hs.tmrTurn
  reset _ hs := .afterReset hs.cfgLegal rfl
  env _ _ _ _ hs := { hs with }

end Sys2Proof.Machine

namespace Sys2Proof.Proofs

open Sys2Proof.Machine

/-- Settles O11. -/
theorem resetMeetsInvariant : Obligations.ResetMeetsInvariant :=
  .afterReset Cfg.default_legal rfl

/-- Settles O12, by the induction over a step: every atomic step keeps the invariant. -/
theorem stepKeepsInvariant : Obligations.StepKeepsInvariant := by
  intro s t hs ht
  exact step_keeps kept_inv (fun _ _ _ hu h => hu.add h) (fun _ _ hu h => hu.cancel h) hs ht

end Sys2Proof.Proofs

/-! ## Noninterference of the observation -/

namespace Sys2Proof.Machine

/-- Two states that differ at most in the trace and the response. -/
abbrev Alike (s u : State) : Prop := s.unobserved = u.unobserved

theorem alike_unobserved (s : State) : Alike s s.unobserved := rfl

/-- What a function reads of the unobserved state, alike states agree on. -/
theorem Alike.read {α : Type} {s u : State} (h : Alike s u) (f : State → α) :
    f s.unobserved = f u.unobserved := congrArg f h

theorem Alike.cfg_eq {s u : State} (h : Alike s u) : s.cfg = u.cfg := h.read State.cfg
theorem Alike.port_eq {s u : State} (h : Alike s u) : s.port = u.port := h.read State.port
theorem Alike.agenda_eq {s u : State} (h : Alike s u) : s.agenda = u.agenda := h.read State.agenda

/-- A function of the state that reads no observation carries alike states to alike states. -/
theorem Alike.map {f : State → State} (hf : ∀ s, Alike (f s) (f s.unobserved)) {s u : State}
    (h : Alike s u) : Alike (f s) (f u) := by
  have hsu : f s.unobserved = f u.unobserved := congrArg f h
  exact ((hf s).trans (congrArg State.unobserved hsu)).trans (hf u).symm

theorem Alike.tmrTurn {s u : State} (h : Alike s u) :
    Alike (Machine.tmrTurn s) (Machine.tmrTurn u) := by
  refine Alike.map (fun x => ?_) h
  cases hd : dequeueEnabled x.blk with
  | true =>
    cases hq : x.blk.fifo with
    | nil => simp [dequeueEnabled, hq] at hd
    | cons w rest => simp [Alike, Machine.tmrTurn, hd, dequeueStep, hq, fifoPop, State.unobserved]
  | false =>
    cases he : elapseEnabled x.blk <;>
      simp [Alike, Machine.tmrTurn, hd, he, elapseStep, State.unobserved]

theorem Alike.resetTurn {s u : State} (h : Alike s u) :
    Alike (Machine.resetTurn s) (Machine.resetTurn u) :=
  Alike.map (fun _ => rfl) h

/-- An effect with the observation taken from its state. -/
def Effect.unobserved : Effect → Effect
  | .done s => .done s.unobserved
  | .raises f => .raises f
  | .stops f => .stops f

theorem appendPrim_unobserved (d : Entry) (s : State) :
    appendPrim d s.unobserved = (appendPrim d s).unobserved := by
  by_cases hc : s.blk.aptr ≥ CAP
  · simp [appendPrim, Effect.unobserved, hc]
  · cases hw : memWrite s.blk.arr s.blk.aptr d <;>
      simp only [appendPrim, hc, if_false, hw, Effect.unobserved, State.unobserved]

theorem addPrim_unobserved (x : Int) (s : State) :
    addPrim x s.unobserved = (addPrim x s).unobserved := by
  by_cases hx : x ≤ 0
  · simp [addPrim, Effect.unobserved, hx]
  by_cases h0 : s.blk.aptr = 0
  · simp [addPrim, Effect.unobserved, hx, h0]
  cases hr : memRead s.blk.arr (s.blk.aptr - 1) with
  | none => simp [addPrim, Effect.unobserved, hx, h0, hr]
  | some e =>
    by_cases ho : 65535 < extendedEntry e x
    · simp [addPrim, Effect.unobserved, hx, h0, hr, ho]
    · cases hw : memWrite s.blk.arr (s.blk.aptr - 1) (BitVec.ofInt 16 (extendedEntry e x)) <;>
        simp [addPrim, Effect.unobserved, State.unobserved, hx, h0, hr, ho, hw]

theorem sendPrim_unobserved (r : BitVec 16) (v : Bool) (s : State) :
    sendPrim r v s.unobserved = (sendPrim r v s).unobserved := by
  have htrace : (deactivate s.unobserved).trace = [] := by simp [truncateLast]
  have hstate : deactivate s.unobserved = { deactivate s with trace := [], response := none } :=
    congrArg (fun l => { deactivate s with trace := l, response := none }) htrace
  simp only [sendPrim, hstate]
  rfl

/-- A primitive reads no observation and records none. -/
theorem perform_unobserved (p : Primitive) (s : State) :
    perform p s.unobserved = (perform p s).unobserved := by
  cases p with
  | bufrst => rfl
  | append d => exact appendPrim_unobserved d s
  | encodeBit want =>
    by_cases hw : want = s.blk.carrier
    · simpa [perform, encodeBitPrim, hw] using appendPrim_unobserved _ s
    · simpa [perform, encodeBitPrim, hw] using addPrim_unobserved _ s
  | send r v => exact sendPrim_unobserved r v s

theorem Alike.perform {s u : State} (h : Alike s u) (p : Primitive) :
    (Machine.perform p s).unobserved = (Machine.perform p u).unobserved :=
  calc (Machine.perform p s).unobserved
      _ = Machine.perform p s.unobserved := (perform_unobserved p s).symm
      _ = Machine.perform p u.unobserved := congrArg (Machine.perform p) h
      _ = (Machine.perform p u).unobserved := perform_unobserved p u

theorem Alike.addPrim {s u : State} (h : Alike s u) (x : Int) :
    (Machine.addPrim x s).unobserved = (Machine.addPrim x u).unobserved :=
  calc (Machine.addPrim x s).unobserved
      _ = Machine.addPrim x s.unobserved := (addPrim_unobserved x s).symm
      _ = Machine.addPrim x u.unobserved := congrArg (Machine.addPrim x) h
      _ = (Machine.addPrim x u).unobserved := addPrim_unobserved x u

/-- Two outcomes that differ at most in the observation. -/
abbrev AlikeOutcome (o o' : Host.Outcome State Fault Refusal) : Prop :=
  mapNext State.unobserved o = mapNext State.unobserved o'

theorem Alike.next {s u : State} (h : Alike s u) : AlikeOutcome (.next s) (.next u) :=
  congrArg Host.Outcome.next h

/-- What two effects with the same unobserved form are. -/
theorem Effect.unobserved_cases {e e' : Effect} (h : e.unobserved = e'.unobserved) :
    (∃ t t', e = .done t ∧ e' = .done t' ∧ Alike t t') ∨ (∃ f, e = .raises f ∧ e' = .raises f) ∨
      ∃ f, e = .stops f ∧ e' = .stops f := by
  cases e with
  | done t =>
    cases e' with
    | done t' => exact .inl ⟨t, t', rfl, rfl, Effect.done.inj h⟩
    | raises f => nomatch h
    | stops f => nomatch h
  | raises f =>
    cases e' with
    | done t' => nomatch h
    | raises f' => exact .inr (.inl ⟨f, rfl, congrArg _ (Effect.raises.inj h).symm⟩)
    | stops f' => nomatch h
  | stops f =>
    cases e' with
    | done t' => nomatch h
    | raises f' => nomatch h
    | stops f' => exact .inr (.inr ⟨f, rfl, congrArg _ (Effect.stops.inj h).symm⟩)

theorem Alike.finish {s u : State} (h : Alike s u) {e e' : Effect}
    (he : e.unobserved = e'.unobserved) :
    AlikeOutcome (Machine.finish s e) (Machine.finish u e') := by
  rcases Effect.unobserved_cases he with ⟨t, t', rfl, rfl, ht⟩ | ⟨f, rfl, rfl⟩ | ⟨f, rfl, rfl⟩
  · exact Alike.next ht
  · exact Alike.next h
  · rfl

/-- What falls between two primitives reads no observation. -/
theorem Alike.interlude (l : List Turn) {s u : State} (h : Alike s u) :
    Alike (Machine.interlude l s).1 (Machine.interlude l u).1 ∧
      (Machine.interlude l s).2 = (Machine.interlude l u).2 := by
  induction l generalizing s u with
  | nil => exact ⟨h.read fun x => { x with agenda := [] }, rfl⟩
  | cons τ rest ih =>
    cases τ with
    | host => exact ⟨h.read fun x => { x with agenda := rest }, rfl⟩
    | tmr => exact ih h.tmrTurn
    | reset => exact ⟨h.resetTurn.read fun x => { x with agenda := rest }, rfl⟩

theorem Alike.runComposite (ps : List Primitive) {s u : State} (h : Alike s u) :
    AlikeOutcome (Machine.runComposite ps s) (Machine.runComposite ps u) := by
  induction ps generalizing s u with
  | nil => exact Alike.next h
  | cons p rest ih =>
    cases rest with
    | nil => exact h.finish (h.perform p)
    | cons q rest =>
      rcases Effect.unobserved_cases (h.perform p) with ⟨t, t', hs, hu, ht⟩ | ⟨f, hs, hu⟩ |
        ⟨f, hs, hu⟩ <;> simp only [Machine.runComposite, hs, hu]
      · obtain ⟨hstate, hgo⟩ := ht.interlude t.agenda
        rw [← ht.agenda_eq]
        generalize Machine.interlude t.agenda t = a at hstate hgo ⊢
        generalize Machine.interlude t.agenda t' = b at hstate hgo ⊢
        obtain ⟨x, go⟩ := a
        obtain ⟨y, go'⟩ := b
        cases hgo
        cases go with
        | true => exact ih hstate
        | false => exact Alike.next hstate
      · exact Alike.next h

/-- No command reads the observation. -/
theorem Alike.exec (i : Instr) {s u : State} (h : Alike s u) :
    AlikeOutcome (Machine.exec i s) (Machine.exec i u) := by
  cases i with
  | transmit a c g =>
    simp only [Machine.exec, execTransmit, h.cfg_eq]
    exact h.runComposite _
  | encode a c g =>
    simp only [Machine.exec, execEncode, h.cfg_eq]
    exact h.runComposite _
  | bufrst => exact h.finish (h.perform .bufrst)
  | append d => exact h.finish (h.perform (.append d))
  | add x => exact h.finish (h.addPrim x)
  | trigger => exact h.runComposite _
  | send r v => exact h.finish (h.perform (.send r v))
  | busy => exact Alike.next h
  | cancel => exact h.finish (e := cancelPrim s) (e' := cancelPrim u) (h.read cancelPrim)

theorem Alike.acceptWord (w : Command) {s u : State} (h : Alike s u) :
    AlikeOutcome (Machine.acceptWord w s) (Machine.acceptWord w u) := by
  simp only [Machine.acceptWord]
  split
  · exact h.exec _
  · exact Alike.next h

theorem Alike.hostTurn {s u : State} (h : Alike s u) :
    AlikeOutcome (Machine.hostTurn s) (Machine.hostTurn u) := by
  simp only [Machine.hostTurn, ← h.port_eq]
  split
  · exact Alike.next h
  · rename_i w rest _
    exact Alike.acceptWord w (h.read fun x => { x with port := rest })

theorem Alike.defaultTurn {s u : State} (h : Alike s u) :
    AlikeOutcome (Machine.defaultTurn s) (Machine.defaultTurn u) := by
  simp only [Machine.defaultTurn, ← h.port_eq]
  split
  · exact Alike.next h.tmrTurn
  · rename_i w rest _
    exact Alike.acceptWord w (h.read fun x => { x with port := rest })

/-- No step reads the observation (10 R33). -/
theorem Alike.step {s u : State} (h : Alike s u) :
    AlikeOutcome (Machine.step s) (Machine.step u) := by
  have rest (l : List Turn) : Alike { s with agenda := l } { u with agenda := l } :=
    h.read fun x => { x with agenda := l }
  simp only [Machine.step, nextTurn, ← h.agenda_eq]
  split
  · exact h.defaultTurn
  · exact (rest _).hostTurn
  · exact Alike.next (rest _).tmrTurn
  · exact Alike.next (rest _).resetTurn

end Sys2Proof.Machine

namespace Sys2Proof.Proofs

open Sys2Proof.Machine

/-- Settles O48: a step carries alike states to alike outcomes. -/
theorem observationIsNeverRead : Obligations.ObservationIsNeverRead :=
  fun s => (alike_unobserved s).step

end Sys2Proof.Proofs

/-! ## The live entries `SEND` leaves -/

namespace Sys2Proof.Machine

theorem read_paddedBuffer_of_pads {v : Bool} {x : Nat} (h : padsAt v x = true) (pad : Entry)
    (m : Memory) (i : Nat) : (paddedBuffer pad v x m).read i =
      if i = x + 1 then STOP else if i = x then pad else m.read i := by
  simp only [paddedBuffer, h, if_true, Memory.read_write]

theorem paddedLength_even {v : Bool} (hv : v = true) (x : Nat) : paddedLength v x % 2 = 0 := by
  subst hv
  by_cases hodd : x % 2 = 1
  · simp only [paddedLength, padsAt, hodd, decide_true, Bool.and_true, if_true]
    omega
  · simp only [paddedLength, padsAt, hodd, decide_false, Bool.and_false]
    simpa using hodd

/-- After step 4 of `SEND` the padded length is the index of the first STOP (42 R103, 10 R36). -/
theorem paddedBuffer_live {m : Memory} {pad : Entry} {x : Nat} (hpad : pad ≠ STOP) (v : Bool)
    (hstop : m.read x = STOP) (hlive : ∀ k < x, m.read k ≠ STOP) :
    (paddedBuffer pad v x m).read (paddedLength v x) = STOP ∧
      ∀ k < paddedLength v x, (paddedBuffer pad v x m).read k ≠ STOP := by
  cases hp : padsAt v x with
  | true =>
    simp only [read_paddedBuffer_of_pads hp, paddedLength, hp, if_true]
    refine ⟨trivial, fun k hk => ?_⟩
    rw [if_neg (by omega)]
    by_cases hkx : k = x
    · rwa [if_pos hkx]
    · rw [if_neg hkx]
      exact hlive k (by omega)
  | false =>
    simpa [paddedBuffer, paddedLength, hp] using ⟨hstop, hlive⟩

/-- The padding leaves the STOP of the last slot: it writes there a STOP or nothing (42 R102). -/
theorem paddedBuffer_last {m : Memory} (pad : Entry) (v : Bool) (x : Nat)
    (hlast : m.read (CAP - 1) = STOP) : (paddedBuffer pad v x m).read (CAP - 1) = STOP := by
  cases hp : padsAt v x with
  | true =>
    obtain ⟨_, hodd⟩ := padsAt_eq_true.mp hp
    have hne : CAP - 1 ≠ x := by simp only [CAP]; omega
    simp only [read_paddedBuffer_of_pads hp, if_neg hne, hlast, ite_self]
  | false => simpa [paddedBuffer, hp] using hlast

/-- The buffer and the live length `SEND` leaves under a legal configuration (10 R36, 20 R46). -/
theorem afterSend_live (r : BitVec 16) (v : Bool) {s : State} (hlegal : s.cfg.legal) :
    let b := (afterSend r v s).blk
    b.arr.read (CAP - 1) = STOP ∧ b.icm < CAP ∧ b.arr.read b.icm = STOP ∧
      (∀ k < b.icm, b.arr.read k ≠ STOP) ∧ (v = true → b.icm % 2 = 0) := by
  obtain ⟨hpad, _⟩ := hlegal
  have hlast : (forceLastStop s.blk.arr).read (CAP - 1) = STOP := by simp [read_forceLastStop]
  obtain ⟨hx, hstop, hlive⟩ := firstStop_spec _ hlast
  obtain ⟨hend, hentries⟩ := paddedBuffer_live hpad v hstop hlive
  exact ⟨paddedBuffer_last _ v _ hlast, paddedLength_lt hx, hend, hentries,
    fun hv => paddedLength_even hv _⟩

end Sys2Proof.Machine

namespace Sys2Proof.Proofs

open Sys2Proof.Machine

/-- Settles O30. -/
theorem sendLeavesEvenLength : Obligations.SendLeavesEvenLength := by
  intro s t r v hlegal ht
  rw [exec_send] at ht
  cases ht
  obtain ⟨hlast, hicm, hrest⟩ := afterSend_live r v hlegal
  exact ⟨hlast, Nat.le_of_lt_succ hicm, hrest⟩

end Sys2Proof.Proofs

/-! ## What only some turns and some primitives keep

`Kept` of the laws speaks of every turn and every primitive; here a property may rest on the turns laid
down (no RESET, the host only) and on the primitives a command is made of (no `SEND`). -/

namespace Sys2Proof.Machine

/-- What holds of the state, whatever the environment and the response, through primitives of the kind
`Q` and turns of the kind `T`. -/
structure KeptUnder (T : Turn → Prop) (Q : Primitive → Prop) (P : State → Prop) : Prop where
  perform : ∀ p s t, Q p → P s → Machine.perform p s = .done t → P t
  add : ∀ x s t, P s → addPrim x s = .done t → P t
  tmr : T .tmr → ∀ s, P s → P (tmrTurn s)
  reset : T .reset → ∀ s, P s → P (resetTurn s)
  env : ∀ s port agenda response, P s →
    P { s with port := port, agenda := agenda, response := response }

/-- The primitives a command is made of; none for `ADD`, `BUSY` and `CANCEL`, which no composite
uses (60 R141). -/
def primitivesOf (order : FieldOrder) : Instr → List Primitive
  | .transmit a c g => transmitPrimitives (frameField order a c g)
  | .encode a c g => encodePrimitives (frameField order a c g)
  | .bufrst => [.bufrst]
  | .append d => [.append d]
  | .add _ => []
  | .trigger => triggerPrimitives
  | .send r v => [.send r v]
  | .busy => []
  | .cancel => []

/-- A command is the run of its primitives, or one of the three that have none. -/
theorem exec_eq (i : Instr) (s : State) :
    exec i s = runComposite (primitivesOf s.cfg.fieldOrder i) s ∨
      (∃ x, i = .add x ∧ exec i s = finish s (addPrim x s)) ∨
      (i = .busy ∧ exec i s = .next (s.respond ⟨.ok, busyValue s.blk⟩)) ∨
      (i = .cancel ∧ exec i s = finish s (cancelPrim s)) := by
  cases i with
  | add x => exact .inr (.inl ⟨x, rfl, rfl⟩)
  | busy => exact .inr (.inr (.inl ⟨rfl, rfl⟩))
  | cancel => exact .inr (.inr (.inr ⟨rfl, rfl⟩))
  | transmit a c g => exact .inl rfl
  | encode a c g => exact .inl rfl
  | bufrst => exact .inl rfl
  | append d => exact .inl rfl
  | trigger => exact .inl rfl
  | send r v => exact .inl rfl

section KeptUnder

variable {T : Turn → Prop} {Q : Primitive → Prop} {P : State → Prop}

/-- Between two primitives, under turns of the kind `T`; the turns still to come are of that kind. -/
theorem interlude_keepsUnder (k : KeptUnder T Q P) (l : List Turn) {s : State}
    (hT : ∀ τ ∈ l, T τ) (h : P s) :
    P (interlude l s).1 ∧ ∀ τ ∈ (interlude l s).1.agenda, T τ := by
  induction l generalizing s with
  | nil => exact ⟨k.env s s.port [] s.response h, by simp [interlude]⟩
  | cons τ rest ih =>
    obtain ⟨hτ, hrest⟩ := List.forall_mem_cons.mp hT
    cases τ with
    | host => exact ⟨k.env s s.port rest s.response h, hrest⟩
    | tmr => exact ih hrest (k.tmr hτ s h)
    | reset => exact ⟨k.env (resetTurn s) s.port rest none (k.reset hτ s h), hrest⟩

theorem finish_keepsUnder (k : KeptUnder T Q P) {s t : State} {e : Effect} (h : P s)
    (hd : ∀ u, e = .done u → P u) (ht : finish s e = .next t) : P t := by
  cases e with
  | done u => cases ht; exact k.env u u.port u.agenda _ (hd u rfl)
  | raises f => cases ht; exact k.env s s.port s.agenda _ h
  | stops f => cases ht

/-- The induction over a composite of primitives of the kind `Q`. -/
theorem runComposite_keepsUnder (k : KeptUnder T Q P) (ps : List Primitive) {s t : State}
    (hQ : ∀ p ∈ ps, Q p) (hT : ∀ τ ∈ s.agenda, T τ) (h : P s)
    (ht : runComposite ps s = .next t) : P t := by
  induction ps generalizing s with
  | nil => cases ht; exact k.env s s.port s.agenda _ h
  | cons p rest ih =>
    obtain ⟨hp, hrest⟩ := List.forall_mem_cons.mp hQ
    cases rest with
    | nil => exact finish_keepsUnder k h (fun u hu => k.perform p s u hp h hu) ht
    | cons q rest =>
      simp only [runComposite] at ht
      cases he : perform p s with
      | done u =>
        obtain ⟨_, _, hagenda, _⟩ := perform_env he
        obtain ⟨hx, hturns⟩ := interlude_keepsUnder k u.agenda (hagenda ▸ hT)
          (k.perform p s u hp h he)
        simp only [he] at ht
        cases hi : interlude u.agenda u with
        | mk x go =>
          simp only [hi] at ht hx hturns
          cases go with
          | true => exact ih hrest hturns hx ht
          | false => cases ht; exact hx
      | raises f => rw [he] at ht; cases ht; exact k.env s s.port s.agenda _ h
      | stops f => rw [he] at ht; cases ht

/-- A command made of primitives of the kind `Q`; `CANCEL` is left to the caller. -/
theorem exec_keepsUnder (k : KeptUnder T Q P) (i : Instr) {s t : State}
    (hQ : ∀ p ∈ primitivesOf s.cfg.fieldOrder i, Q p)
    (hcancel : i = .cancel → ∀ u, cancelPrim s = .done u → P u)
    (hT : ∀ τ ∈ s.agenda, T τ) (h : P s) (ht : exec i s = .next t) : P t := by
  rcases exec_eq i s with e | ⟨x, _, e⟩ | ⟨_, e⟩ | ⟨hi, e⟩ <;> rw [e] at ht
  · exact runComposite_keepsUnder k _ hQ hT h ht
  · exact finish_keepsUnder k h (fun u hu => k.add x s u h hu) ht
  · cases ht; exact k.env s s.port s.agenda _ h
  · exact finish_keepsUnder k h (hcancel hi) ht

/-- A step under turns of the kind `T`, TMR's among them, when every primitive keeps `P`. -/
theorem step_keepsUnder (k : KeptUnder T (fun _ => True) P)
    (kc : ∀ s t, P s → cancelPrim s = .done t → P t) (htmr : T .tmr) {s t : State}
    (hT : ∀ τ ∈ s.agenda, T τ) (h : P s) (ht : step s = .next t) : P t := by
  have word : ∀ w u, acceptWord w u = .next t → (∀ τ ∈ u.agenda, T τ) → P u → P t := by
    intro w u hw hu hPu
    simp only [acceptWord] at hw
    split at hw
    · exact exec_keepsUnder k _ (fun _ _ => trivial) (fun _ v hv => kc u v hPu hv) hu hPu hw
    · cases hw; exact k.env u u.port u.agenda _ hPu
  simp only [step, nextTurn] at ht
  split at ht
  case h_1 =>
    simp only [defaultTurn] at ht
    split at ht
    · cases ht; exact k.tmr htmr s h
    · exact word _ _ ht hT (k.env s _ s.agenda s.response h)
  case h_2 rest hagenda =>
    rw [hagenda] at hT
    obtain ⟨_, hrest⟩ := List.forall_mem_cons.mp hT
    simp only [hostTurn] at ht
    split at ht
    · cases ht; exact k.env s s.port rest s.response h
    · exact word _ _ ht hrest (k.env s _ rest s.response h)
  case h_3 rest hagenda =>
    cases ht; exact k.tmr htmr _ (k.env s s.port rest s.response h)
  case h_4 rest hagenda =>
    rw [hagenda] at hT
    obtain ⟨hreset, _⟩ := List.forall_mem_cons.mp hT
    cases ht; exact k.reset hreset _ (k.env s s.port rest s.response h)

end KeptUnder

/-! ### What the primitives leave unchanged -/

/-- The primitive is a `SEND`. -/
def Primitive.isSend : Primitive → Bool
  | .bufrst => false
  | .append _ => false
  | .encodeBit _ => false
  | .send _ _ => true

/-- The state without the Pulse Buffer, its pointer and its polarity, and without the environment and
the response. -/
def State.outsideBuffer (s : State) : State :=
  { s with
    blk := { s.blk with arr := [], aptr := 0, carrier := .off }
    response := none, port := [], agenda := [] }

theorem addPrim_outsideBuffer {x : Int} {s t : State} (h : addPrim x s = .done t) :
    t.outsideBuffer = s.outsideBuffer := by
  obtain ⟨_, _, _, rfl⟩ := addPrim_done h
  rfl

theorem appendPrim_outsideBuffer {d : Entry} {s t : State} (h : appendPrim d s = .done t) :
    t.outsideBuffer = s.outsideBuffer := by
  obtain ⟨_, rfl⟩ := appendPrim_done h
  rfl

/-- The primitives other than `SEND` write the buffer, its pointer and its polarity alone (10 R31). -/
theorem perform_outsideBuffer {p : Primitive} {s t : State} (hp : p.isSend = false)
    (h : perform p s = .done t) : t.outsideBuffer = s.outsideBuffer := by
  cases p with
  | bufrst => cases h; rfl
  | append d => exact appendPrim_outsideBuffer h
  | encodeBit want =>
    rcases encodeBitPrim_cases want s with e | e
    · exact addPrim_outsideBuffer (e.symm.trans h)
    · exact appendPrim_outsideBuffer (e.symm.trans h)
  | send r v => cases hp

/-- States that agree outside the buffer agree on what the observer sees of the carrier. -/
theorem carrierOutput_of_outsideBuffer {s t : State} (h : t.outsideBuffer = s.outsideBuffer) :
    t.blk.level = s.blk.level ∧ t.blk.feedFault = s.blk.feedFault ∧
      t.trace.length = s.trace.length :=
  ⟨congrArg (fun u => u.blk.level) h, congrArg (fun u => u.blk.feedFault) h,
    congrArg (fun u => u.trace.length) h⟩

/-- No primitive writes `level` or `feed_fault`, or plays a segment (10 R31). -/
theorem perform_level {p : Primitive} {s t : State} (h : perform p s = .done t) :
    t.blk.level = s.blk.level ∧ t.blk.feedFault = s.blk.feedFault ∧
      t.trace.length = s.trace.length := by
  cases hp : p.isSend with
  | false => exact carrierOutput_of_outsideBuffer (perform_outsideBuffer hp h)
  | true =>
    cases p with
    | send r v =>
      cases h
      refine ⟨rfl, rfl, ?_⟩
      by_cases hr : s.blk.running = true <;> simp [hr]
    | bufrst => cases hp
    | append d => cases hp
    | encodeBit want => cases hp

/-- A `SEND` leaves the pointer and the tracked polarity (10 R31). -/
theorem perform_send_pointer {p : Primitive} {s t : State} (hp : p.isSend = true)
    (h : perform p s = .done t) :
    t.blk.aptr = s.blk.aptr ∧ t.blk.carrier = s.blk.carrier := by
  cases p with
  | send r v => cases h; exact ⟨rfl, rfl⟩
  | bufrst => cases hp
  | append d => cases hp
  | encodeBit want => cases hp

/-- The encoder sends nothing (40 R80). -/
theorem encodePrimitives_noSend (d : BitVec 13) : ∀ p ∈ encodePrimitives d, p.isSend = false := by
  intro p hp
  rcases List.mem_cons.mp hp with rfl | hp
  · rfl
  obtain ⟨bit, _, hbit⟩ := List.mem_flatMap.mp hp
  rcases List.mem_cons.mp hbit with rfl | hbit
  · rfl
  · rw [List.mem_singleton.mp hbit]
    rfl

/-- A command that begins no session is made of primitives other than `SEND`. -/
theorem primitivesOf_noSend (order : FieldOrder) {i : Instr} (hi : beginsSession i = false) :
    ∀ p ∈ primitivesOf order i, p.isSend = false := by
  cases i with
  | encode a c g => exact encodePrimitives_noSend _
  | transmit a c g => cases hi
  | trigger => cases hi
  | send r v => cases hi
  | bufrst => simp [primitivesOf, Primitive.isSend]
  | append d => simp [primitivesOf, Primitive.isSend]
  | add x => simp [primitivesOf]
  | busy => simp [primitivesOf]
  | cancel => simp [primitivesOf]

/-- A command that does not append is a `SEND` or made of no primitive. -/
theorem primitivesOf_isSend (order : FieldOrder) {i : Instr} (hi : movesPointer i = false) :
    ∀ p ∈ primitivesOf order i, p.isSend = true := by
  cases i with
  | send r v => simp [primitivesOf, Primitive.isSend]
  | add x => simp [primitivesOf]
  | busy => simp [primitivesOf]
  | cancel => simp [primitivesOf]
  | transmit a c g => cases hi
  | encode a c g => cases hi
  | bufrst => cases hi
  | append d => cases hi
  | trigger => cases hi

/-! ### What hosts and stuck blocks keep -/

/-- With the host alone no primitive writes `level` or `feed_fault`. -/
theorem keptUnder_level (level : OnOff) (feedFault : Bool) :
    KeptUnder (· = .host) (fun _ => True)
      fun s => s.blk.level = level ∧ s.blk.feedFault = feedFault where
  perform _ _ _ _ hs h := by
    obtain ⟨hlevel', hfault'⟩ := hs
    obtain ⟨hlevel, hfault, _⟩ := perform_level h
    exact ⟨hlevel.trans hlevel', hfault.trans hfault'⟩
  add _ _ _ hs h := by
    obtain ⟨hlevel', hfault'⟩ := hs
    obtain ⟨hlevel, hfault, _⟩ := carrierOutput_of_outsideBuffer (addPrim_outsideBuffer h)
    exact ⟨hlevel.trans hlevel', hfault.trans hfault'⟩
  tmr h := nomatch h
  reset h := nomatch h
  env _ _ _ _ hs := hs

/-- With the host alone the primitives other than `SEND` keep all but the buffer. -/
theorem keptUnder_outsideBuffer (s : State) :
    KeptUnder (· = .host) (fun p => p.isSend = false)
      fun t => t.outsideBuffer = s.outsideBuffer where
  perform _ _ _ hp hs h := (perform_outsideBuffer hp h).trans hs
  add _ _ _ hs h := (addPrim_outsideBuffer h).trans hs
  tmr h := nomatch h
  reset h := nomatch h
  env _ _ _ _ hs := hs

/-- With the host alone `SEND` and `ADD` keep the pointer and the polarity. -/
theorem keptUnder_pointer (aptr : Nat) (carrier : OnOff) :
    KeptUnder (· = .host) (fun p => p.isSend = true)
      fun s => s.blk.aptr = aptr ∧ s.blk.carrier = carrier where
  perform _ _ _ hp hs h := by
    obtain ⟨haptr', hcarrier'⟩ := hs
    obtain ⟨haptr, hcarrier⟩ := perform_send_pointer hp h
    exact ⟨haptr.trans haptr', hcarrier.trans hcarrier'⟩
  add _ _ _ hs h := by
    obtain ⟨_, _, _, rfl⟩ := addPrim_done h
    exact hs
  tmr h := nomatch h
  reset h := nomatch h
  env _ _ _ _ hs := hs

/-- `feed_fault` set, the level `level`, `n` segments emitted. -/
def stuckWith (level : OnOff) (n : Nat) (s : State) : Prop :=
  s.blk.feedFault = true ∧ s.blk.level = level ∧ s.trace.length = n

/-- A stuck block stays so without RESET: TMR has no enabled step (60 R137). -/
theorem keptUnder_stuck (level : OnOff) (n : Nat) :
    KeptUnder (· ≠ .reset) (fun _ => True) (stuckWith level n) where
  perform _ _ _ _ hs h := by
    obtain ⟨hfault, hlevel, hn⟩ := hs
    obtain ⟨hlevel', hfault', hn'⟩ := perform_level h
    exact ⟨hfault'.trans hfault, hlevel'.trans hlevel, hn'.trans hn⟩
  add _ _ _ hs h := by
    obtain ⟨hfault, hlevel, hn⟩ := hs
    obtain ⟨hlevel', hfault', hn'⟩ := carrierOutput_of_outsideBuffer (addPrim_outsideBuffer h)
    exact ⟨hfault'.trans hfault, hlevel'.trans hlevel, hn'.trans hn⟩
  tmr _ _ hs := by
    have ⟨hfault, _⟩ := hs
    rwa [tmrTurn_of_feedFault hfault]
  reset h := absurd rfl h
  env _ _ _ _ hs := hs

end Sys2Proof.Machine

namespace Sys2Proof.Proofs

open Sys2Proof.Machine

/-- Settles O37. -/
theorem feedFaultSticksUntilReset : Obligations.FeedFaultSticksUntilReset := by
  intro s t hfault hturns ht
  refine step_keepsUnder (keptUnder_stuck s.blk.level s.trace.length) ?cancel (by decide) hturns
    ⟨hfault, rfl, rfl⟩ ht
  case cancel =>
    intro u u' hu h
    cases h
    exact hu

/-- The elements that only the session commands, and `CANCEL` on `reps`, write (10 R31). -/
theorem exec_keeps_session {i : Instr} {s t : State} (hi : beginsSession i = false)
    (hhost : hostOnly s.agenda) (ht : exec i s = .next t) :
    t.outsideBuffer = { s.outsideBuffer with
      blk := { s.outsideBuffer.blk with reps := if i = .cancel then 1#16 else s.blk.reps } } := by
  by_cases hc : i = .cancel
  · subst hc
    cases ht
    rfl
  · rw [if_neg hc]
    exact exec_keepsUnder (keptUnder_outsideBuffer s) i (primitivesOf_noSend _ hi)
      (fun h => absurd h hc) hhost rfl ht

/-- Settles O39. -/
theorem hostWritesOnlyItsElements : Obligations.HostWritesOnlyItsElements := by
  intro i s t hhost ht
  obtain ⟨hlevel, hfault⟩ := exec_keepsUnder (keptUnder_level s.blk.level s.blk.feedFault) i
    (fun _ _ => trivial) (fun _ _ h => by cases h; exact ⟨rfl, rfl⟩) hhost ⟨rfl, rfl⟩ ht
  refine ⟨hlevel, hfault, fun hi => ?session, fun hi => ?pointer⟩
  case pointer =>
    exact exec_keepsUnder (keptUnder_pointer s.blk.aptr s.blk.carrier) i (primitivesOf_isSend _ hi)
      (fun _ _ h => by cases h; exact ⟨rfl, rfl⟩) hhost ⟨rfl, rfl⟩ ht
  case session =>
    have hsession := exec_keeps_session hi hhost ht
    simp only [State.outsideBuffer, State.mk.injEq, Block.mk.injEq, true_and] at hsession
    obtain ⟨_, ⟨hreps, hicm, hict, hapt, hstarted, hactive, hfifo, hphase, hrunning, hcur, hpin, _⟩,
      htrace, _⟩ := hsession
    exact ⟨hicm, hict, hapt, hstarted, hactive, hfifo, hphase, hrunning, hcur, hpin, htrace,
      fun hne => hreps.trans (if_neg hne)⟩

end Sys2Proof.Proofs

/-! ## Playback left alone -/

namespace Sys2Proof.Machine

theorem tmrTurn_unattended {s : State} (h : unattended s) : unattended (tmrTurn s) := by
  obtain ⟨hport, hagenda⟩ := h
  simpa only [unattended, tmrTurn_frame] using And.intro hport hagenda

/-- Left alone, the block takes TMR's turn. -/
theorem step_of_unattended {s : State} (h : unattended s) : step s = .next (tmrTurn s) := by
  obtain ⟨hport, hagenda⟩ := h
  simp only [step, nextTurn, hagenda, defaultTurn, hport]

theorem run_succ_of_step {s t : State} (h : step s = .next t) (k : Nat) :
    Host.Core.run Sys2Proof.core (k + 1) s = Host.Core.run Sys2Proof.core k t := by
  have hcore : Sys2Proof.core.step s = .next t := h
  simp only [Host.Core.run, hcore]

/-- Left alone, a run of `k` steps is `k` turns of TMR. -/
theorem run_of_unattended (k : Nat) {s : State} (h : unattended s) :
    Host.Core.run Sys2Proof.core k s = .next (tmrTurn^[k] s) := by
  induction k generalizing s with
  | zero => rfl
  | succ k ih =>
    rw [run_succ_of_step (step_of_unattended h), ih (tmrTurn_unattended h),
      Function.iterate_succ_apply]

/-- `FEED` within the live entries of the last frame, with room in the queue: it counts, it fetches up to
the STOP and queues what it fetches (42 R105, R106). -/
theorem feed_last_frame {cfg : Cfg} {b : Block} (hlive : inLiveEntries b) (hreps : b.reps = 1#16)
    (hroom : b.fifo.length < cfg.fifoDepth) :
    (feed cfg b).ict = b.ict + 1 ∧ (feed cfg b).apt = min b.icm (b.apt + 1) ∧
      (feed cfg b).fifo.length + b.apt = b.fifo.length + (feed cfg b).apt ∧
      (feed cfg b).reps = b.reps ∧ (feed cfg b).feedFault = b.feedFault := by
  obtain ⟨hapt, hicm, hstop, hentries⟩ := hlive
  rcases feed_cases cfg b with ⟨hc, _⟩ | ⟨_, he, _, e⟩ | ⟨_, _, hfull, _⟩ | ⟨_, he, _, e⟩ |
    ⟨_, _, hr, _⟩ | ⟨_, _, hr, _⟩
  · omega
  · have hne : b.apt ≠ b.icm := fun h => he (h ▸ hstop)
    simp only [e, List.length_append, List.length_singleton]
    exact ⟨trivial, by omega, by omega, trivial, trivial⟩
  · omega
  · have hend : b.apt = b.icm := by
      by_contra hne
      exact hentries b.apt (by omega) he
    simp only [e]
    exact ⟨trivial, by omega, trivial, trivial, trivial⟩
  · exact absurd hreps hr
  · exact absurd hreps hr

/-- The state `u` of one frame's playback from `t`, before entry `k` is dequeued: `k` entries have been
played, `preloadMax` more of them are fetched as far as there are any, and the last one played was a mark
when its index is even. -/
structure FrameProgress (t : State) (k : Nat) (u : State) : Prop where
  cfg : u.cfg = t.cfg
  arr : u.blk.arr = t.blk.arr
  icm : u.blk.icm = t.blk.icm
  reps : u.blk.reps = 1#16
  active : u.blk.active = true
  running : u.blk.running = false
  feedFault : u.blk.feedFault = false
  count : u.blk.ict = k
  fetched : u.blk.apt = min t.blk.icm (k + preloadMax)
  queued : k + u.blk.fifo.length = u.blk.apt
  phase : u.blk.phase = .X ↔ k % 2 = 0
  last : 0 < k → (u.blk.pin, u.blk.level) = markOrSpace (k - 1)
  played : ∃ l, u.trace = t.trace ++ l ∧
    l.map (fun g => (g.pin, g.level)) = (List.range k).map markOrSpace

/-- Pin and level of a dequeue whose phase and count have the parity of the index (43 R121, 42 R105). -/
theorem markOrSpace_eq {p : Phase} {k : Nat} (h : p = .X ↔ k % 2 = 0) :
    (pinOfPhase p, levelOfCount k) = markOrSpace k := by
  cases p with
  | X => simp [pinOfPhase, levelOfCount, markOrSpace, h.mp rfl]
  | Y =>
    have hk : ¬ k % 2 = 0 := fun hk => nomatch h.mpr hk
    simp [pinOfPhase, levelOfCount, markOrSpace, hk]

theorem flip_eq_X (p : Phase) : p.flip = .X ↔ ¬ p = .X := by cases p <;> decide

/-- A dequeue and an elapse play one more entry. -/
theorem FrameProgress.next {t u : State} {k : Nat} (h : FrameProgress t k u)
    (hlegal : t.cfg.legal) (hlive : inLiveEntries t.blk) (hk : k < t.blk.icm) :
    FrameProgress t (k + 1) (tmrTurn (tmrTurn u)) := by
  obtain ⟨_, hdepth, _⟩ := hlegal
  obtain ⟨_, hicm, hstop, hentries⟩ := hlive
  have hpre : preloadMax = 4 := rfl
  have hfetched := h.fetched
  have hqueued := h.queued
  obtain ⟨w, rest, hq⟩ : ∃ w rest, u.blk.fifo = w :: rest :=
    List.exists_cons_of_length_pos (by omega)
  have hlen : u.blk.fifo.length = rest.length + 1 := by rw [hq]; rfl
  have hb : inLiveEntries (holdNext w rest u.blk) := by
    simp only [inLiveEntries, holdNext_apt, holdNext_icm, holdNext_arr, h.icm, h.arr]
    exact ⟨by omega, hicm, hstop, hentries⟩
  have hroom : (holdNext w rest u.blk).fifo.length < u.cfg.fifoDepth := by
    rw [h.cfg, holdNext_fifo]
    omega
  obtain ⟨hict, hapt, hfifo, hreps, hfault⟩ := feed_last_frame hb h.reps hroom
  simp only [holdNext_ict, holdNext_apt, holdNext_icm, holdNext_fifo, holdNext_reps,
    holdNext_feedFault, h.icm, h.count, h.reps, h.feedFault] at hict hapt hfifo hreps hfault
  obtain ⟨l, htrace, hl⟩ := h.played
  have hmark := markOrSpace_eq h.phase
  rw [tmrTurn_of_queued h.active h.running h.feedFault hq,
    tmrTurn_of_running (by simpa [feed_frame] using h.active) (by simp [feed_frame]) hfault]
  exact
    { cfg := h.cfg
      arr := by simpa [feed_frame] using h.arr
      icm := by simpa [feed_frame] using h.icm
      reps := hreps
      active := by simpa [feed_frame] using h.active
      running := rfl
      feedFault := hfault
      count := hict
      fetched := by simp only [elapseStep_apt, hapt]; omega
      queued := by simp only [elapseStep_apt, elapseStep_fifo]; omega
      phase := by
        simp only [elapseStep_phase, feed_frame, holdNext_phase, flip_eq_X, h.phase]
        omega
      last := fun _ => by simpa [feed_frame, h.count] using hmark
      played := by
        refine ⟨l ++ [segmentOf (feed u.cfg (holdNext w rest u.blk)) w], ?_, ?_⟩
        · simp only [elapseStep_trace, htrace, List.append_assoc]
        · rw [List.map_append, hl, List.range_succ, List.map_append]
          simpa [segmentOf, feed_frame, h.count] using hmark }

/-- Up to the last entry, two turns of TMR play one entry. -/
theorem FrameProgress.iterate {t : State} (h : FrameProgress t 0 t) (hlegal : t.cfg.legal)
    (hlive : inLiveEntries t.blk) {k : Nat} (hk : k ≤ t.blk.icm) :
    FrameProgress t k (tmrTurn^[2 * k] t) := by
  induction k with
  | zero => exact h
  | succ k ih =>
    rw [show 2 * (k + 1) = 2 * k + 1 + 1 from rfl, Function.iterate_succ_apply',
      Function.iterate_succ_apply']
    exact (ih (by omega)).next hlegal hlive hk

/-- `SEND 1` leaves the first frame to be played (42 R104). -/
theorem FrameProgress.afterSend (v : Bool) {s : State} (hfault : s.blk.feedFault = false) :
    FrameProgress (afterSend 1#16 v s) 0 (afterSend 1#16 v s) where
  cfg := rfl
  arr := rfl
  icm := rfl
  reps := rfl
  active := rfl
  running := rfl
  feedFault := hfault
  count := rfl
  fetched := by
    rw [Nat.zero_add]
    rfl
  queued := by
    rw [Nat.zero_add]
    exact preload_length _ _
  phase := iff_of_true rfl rfl
  last h := absurd h (Nat.lt_irrefl 0)
  played := ⟨[], (List.append_nil _).symm, rfl⟩

theorem afterSend_inLiveEntries (r : BitVec 16) (v : Bool) {s : State} (hlegal : s.cfg.legal) :
    inLiveEntries (Machine.afterSend r v s).blk := by
  obtain ⟨_, hicm, hstop, hentries, _⟩ := afterSend_live r v hlegal
  exact ⟨Nat.min_le_left _ _, hicm, hstop, hentries⟩

/-- A mark is asserted and on. -/
theorem markOrSpace_eq_mark {pin : Bool} {level : OnOff} {j : Nat}
    (h : (pin, level) = markOrSpace j) :
    (level = .on ↔ j % 2 = 0) ∧ (pin = true ↔ j % 2 = 0) := by
  by_cases hj : j % 2 = 0
  · simp only [markOrSpace, hj, if_true, Prod.mk.injEq] at h
    simp [h, hj]
  · simp only [markOrSpace, hj, if_false, Prod.mk.injEq] at h
    simp [h, hj]

end Sys2Proof.Machine

namespace Sys2Proof.Proofs

open Sys2Proof.Machine

/-- Settles O45: at the end of the run the last entry, at index `icm - 1`, is the one last played. -/
theorem oneFrameFinalLevel : Obligations.OneFrameFinalLevel := by
  intro s t u v hs hfault hlegal ht hpos hrun
  rw [exec_send] at ht
  cases ht
  rw [run_of_unattended _ (show unattended (afterSend 1#16 v s) from hs)] at hrun
  cases hrun
  have hend := FrameProgress.iterate (.afterSend v hfault) hlegal
    (afterSend_inLiveEntries 1#16 v hlegal) le_rfl
  obtain ⟨hlevel, hpin⟩ := markOrSpace_eq_mark (hend.last hpos)
  obtain ⟨l, htrace, hl⟩ := hend.played
  refine ⟨hlevel.trans (by omega), hpin.trans (by omega), ?_⟩
  rw [htrace, List.drop_left]
  exact hl

end Sys2Proof.Proofs

/-! ## A step as a chain of atomic steps

The atomic steps read neither the port, the agenda nor the response, so each of them commutes with
`State.quiet`; the induction over a step then is that of `step_keeps`. -/

namespace Sys2Proof.Machine

theorem appendPrim_quiet {d : Entry} {s t : State} (h : appendPrim d s = .done t) :
    appendPrim d s.quiet = .done t.quiet := by
  obtain ⟨hroom, rfl⟩ := appendPrim_done h
  rcases appendPrim_cases d s.quiet with ⟨hfull, _⟩ | ⟨_, e⟩
  · exact absurd hfull (Nat.not_le.mpr hroom)
  · exact e

theorem addPrim_quiet {x : Int} {s t : State} (h : addPrim x s = .done t) :
    addPrim x s.quiet = .done t.quiet := by
  rcases addPrim_cases x s with ⟨_, e⟩ | ⟨_, _, e⟩ | ⟨_, _, e⟩ | ⟨_, _, _, _, e⟩ |
    ⟨hx, hpos, hcap, hsum, e⟩ <;> rw [e] at h <;> cases h
  rcases addPrim_cases x s.quiet with ⟨hx', _⟩ | ⟨_, hzero, _⟩ | ⟨_, hout, _⟩ |
    ⟨_, _, _, hover, _⟩ | ⟨_, _, _, _, e'⟩
  · exact absurd hx' (Int.not_le.mpr hx)
  · exact absurd hzero (Nat.ne_of_gt hpos)
  · exact absurd hout (Nat.not_lt.mpr hcap)
  · exact absurd hover (Int.not_lt.mpr hsum)
  · exact e'

/-- A primitive reads nothing of the environment. -/
theorem perform_quiet {p : Primitive} {s t : State} (h : perform p s = .done t) :
    perform p s.quiet = .done t.quiet := by
  cases p with
  | bufrst => cases h; rfl
  | append d => exact appendPrim_quiet h
  | encodeBit want =>
    by_cases hw : want = s.blk.carrier
    · simp only [perform, encodeBitPrim, quiet_blk, hw, ne_eq, not_true, if_false] at h ⊢
      exact appendPrim_quiet h
    · simp only [perform, encodeBitPrim, quiet_blk, hw, ne_eq, not_false_iff, if_true] at h ⊢
      exact addPrim_quiet h
  | send r v => cases h; rfl

theorem dequeueStep_quiet (s : State) : dequeueStep s.quiet = (dequeueStep s).quiet := by
  cases hq : s.blk.fifo <;> simp [dequeueStep, fifoPop, hq, State.quiet]

/-- TMR's turn is its enabled step, or no step. -/
theorem tmrTurn_atomicSteps (s : State) :
    Relation.ReflTransGen AtomicStep s.quiet (tmrTurn s).quiet := by
  cases hd : dequeueEnabled s.blk with
  | true =>
    rw [tmrTurn, if_pos hd, ← dequeueStep_quiet]
    exact .single (.dequeue hd)
  | false =>
    cases he : elapseEnabled s.blk with
    | true =>
      have hturn : tmrTurn s = elapseStep s := by simp [tmrTurn, hd, he]
      rw [hturn]
      exact .single (.elapse (s := s.quiet) he)
    | false =>
      have hturn : tmrTurn s = s := by simp [tmrTurn, hd, he]
      rw [hturn]

/-- Reached from `s` by atomic steps, the environment left aside: primitives, TMR's turns and RESET
keep it. -/
theorem kept_atomicSteps (s : State) :
    Kept fun t => Relation.ReflTransGen AtomicStep s.quiet t.quiet where
  perform p _ _ hs h := hs.tail (.primitive p (perform_quiet h))
  tmr t hs := hs.trans (tmrTurn_atomicSteps t)
  reset _ hs := hs.tail .reset
  env _ _ _ _ hs := hs

end Sys2Proof.Machine

namespace Sys2Proof.Proofs

open Sys2Proof.Machine

/-- Settles O28, by the induction over a step. -/
theorem stepIsAtomicSteps : Obligations.StepIsAtomicSteps := by
  intro s t ht
  refine step_keeps (kept_atomicSteps s) ?add ?cancel .refl ht
  case add => exact fun x _ _ hs h => hs.tail (.add x (addPrim_quiet h))
  case cancel =>
    intro u u' hs h
    cases h
    exact hs.tail (.cancel rfl)

end Sys2Proof.Proofs

/-! ## CANCEL and FEED at a STOP -/

namespace Sys2Proof.Machine

/-- `FEED` at the STOP of the last frame queues nothing (42 R105). -/
theorem feed_at_stop_last {cfg : Cfg} {b : Block} (hapt : b.apt < CAP)
    (hstop : b.arr.read b.apt = STOP) (hreps : b.reps = 1#16) : feed cfg b = feedCounted b := by
  rcases feed_cases cfg b with ⟨hc, _⟩ | ⟨_, he, _⟩ | ⟨_, he, _⟩ | ⟨_, _, _, e⟩ |
    ⟨_, _, hr, _⟩ | ⟨_, _, hr, _⟩
  · exact absurd hapt (Nat.not_lt.mpr hc)
  · exact absurd hstop he
  · exact absurd hstop he
  · exact e
  · exact absurd hreps hr
  · exact absurd hreps hr

/-- `FEED` at the STOP of an earlier frame, with room in the queue, starts the next one (42 R107). -/
theorem feed_at_stop_repeat {cfg : Cfg} {b : Block} (hapt : b.apt < CAP)
    (hstop : b.arr.read b.apt = STOP) (hreps : b.reps ≠ 1#16)
    (hroom : b.fifo.length < cfg.fifoDepth) :
    feed cfg b = { feedCounted b with
      reps := repsAfterRepeat b, fifo := b.fifo ++ [widen (b.arr.read 0)], apt := 1, ict := 1 } := by
  rcases feed_cases cfg b with ⟨hc, _⟩ | ⟨_, he, _⟩ | ⟨_, he, _⟩ | ⟨_, _, hr, _⟩ |
    ⟨_, _, _, _, e⟩ | ⟨_, _, _, hfull, _⟩
  · exact absurd hapt (Nat.not_lt.mpr hc)
  · exact absurd hstop he
  · exact absurd hstop he
  · exact absurd hr hreps
  · exact e
  · exact absurd hroom (Nat.not_lt.mpr hfull)

/-- A dequeue at the STOP of the last frame. -/
theorem tmrTurn_blk_of_last_stop {s : State} {w : Ticks} {q : List Ticks}
    (hactive : s.blk.active = true) (hrunning : s.blk.running = false)
    (hfault : s.blk.feedFault = false) (hq : s.blk.fifo = w :: q) (hapt : s.blk.apt < CAP)
    (hstop : s.blk.arr.read s.blk.apt = STOP) (hreps : s.blk.reps = 1#16) :
    (tmrTurn s).blk = feedCounted (holdNext w q s.blk) := by
  rw [tmrTurn_of_queued hactive hrunning hfault hq]
  exact feed_at_stop_last hapt hstop hreps

/-- A dequeue at the STOP of an earlier frame, with room in the queue. -/
theorem tmrTurn_blk_of_repeat_stop {s : State} {w : Ticks} {q : List Ticks}
    (hactive : s.blk.active = true) (hrunning : s.blk.running = false)
    (hfault : s.blk.feedFault = false) (hq : s.blk.fifo = w :: q) (hapt : s.blk.apt < CAP)
    (hstop : s.blk.arr.read s.blk.apt = STOP) (hreps : s.blk.reps ≠ 1#16)
    (hroom : q.length < s.cfg.fifoDepth) :
    (tmrTurn s).blk = { feedCounted (holdNext w q s.blk) with
      reps := repsAfterRepeat s.blk, fifo := q ++ [widen (s.blk.arr.read 0)], apt := 1, ict := 1 } := by
  rw [tmrTurn_of_queued hactive hrunning hfault hq]
  exact feed_at_stop_repeat (b := holdNext w q s.blk) hapt hstop hreps hroom

end Sys2Proof.Machine

namespace Sys2Proof.Proofs

open Sys2Proof.Machine

/-- Settles O33: after `CANCEL` the STOP is that of the last frame, before it that of an earlier one. -/
theorem cancelAgainstFeed : Obligations.CancelAgainstFeed := by
  intro s w q hactive hrunning hfault hq hapt hstop hroom hone hzero
  have hlast := tmrTurn_blk_of_last_stop (s := { s with blk := { s.blk with reps := 1#16 } })
    hactive hrunning hfault hq hapt hstop rfl
  have hrepeat := tmrTurn_blk_of_repeat_stop hactive hrunning hfault hq hapt hstop hone hroom
  refine ⟨⟨_, rfl, ?cancelFirst⟩, ?feedFirst, _, rfl, rfl, ?apt, ?fifo⟩
  case cancelFirst =>
    rw [hlast]
    exact ⟨rfl, rfl, rfl⟩
  case feedFirst =>
    calc (tmrTurn s).blk.reps
        _ = repsAfterRepeat s.blk := congrArg Block.reps hrepeat
        _ = s.blk.reps - 1#16 := if_neg hzero
  case apt => rw [hrepeat]
  case fifo =>
    rw [hrepeat]
    rfl

end Sys2Proof.Proofs

/-! ## Playback of several frames of even length -/

namespace Sys2Proof.Machine

/-- `FEED` within the live entries, with room in the queue: it queues an entry, or at the STOP ends the
last frame or starts the next one (42 R105, R107). -/
theorem feed_of_live {cfg : Cfg} {b : Block} (hlive : inLiveEntries b)
    (hroom : b.fifo.length < cfg.fifoDepth) :
    (b.apt < b.icm ∧ feed cfg b = { feedCounted b with
      fifo := b.fifo ++ [widen (b.arr.read b.apt)], apt := b.apt + 1 }) ∨
    (b.apt = b.icm ∧ b.reps = 1#16 ∧ feed cfg b = feedCounted b) ∨
    (b.apt = b.icm ∧ b.reps ≠ 1#16 ∧ feed cfg b = { feedCounted b with
      reps := repsAfterRepeat b, fifo := b.fifo ++ [widen (b.arr.read 0)], apt := 1, ict := 1 }) := by
  obtain ⟨hapt, hicm, hstop, hentries⟩ := hlive
  have hcap : b.apt < CAP := Nat.lt_of_le_of_lt hapt hicm
  rcases Nat.lt_or_eq_of_le hapt with hlt | hend
  · left
    refine ⟨hlt, ?_⟩
    rcases feed_cases cfg b with ⟨hc, _⟩ | ⟨_, _, _, e⟩ | ⟨_, _, hfull, _⟩ | ⟨_, he, _⟩ |
      ⟨_, he, _⟩ | ⟨_, he, _⟩
    · exact absurd hcap (Nat.not_lt.mpr hc)
    · exact e
    · exact absurd hroom (Nat.not_lt.mpr hfull)
    · exact absurd he (hentries _ hlt)
    · exact absurd he (hentries _ hlt)
    · exact absurd he (hentries _ hlt)
  · right
    have hstop' : b.arr.read b.apt = STOP := hend ▸ hstop
    by_cases hreps : b.reps = 1#16
    · exact .inl ⟨hend, hreps, feed_at_stop_last hcap hstop' hreps⟩
    · exact .inr ⟨hend, hreps, feed_at_stop_repeat hcap hstop' hreps hroom⟩

/-- How many entries of a playback of `n` frames are fetched when `k` are dequeued: `SEND` preloads
some, and every `FEED` fetches one until the last frame is fetched (42 R104, R105, R107). -/
def fetchedAfter (n icm k : Nat) : Nat := min (n * icm) (k + min icm preloadMax)

theorem fetchedAfter_le (n icm k : Nat) : fetchedAfter n icm k ≤ n * icm := Nat.min_le_left _ _

theorem fetchedAfter_le_add (n icm k : Nat) : fetchedAfter n icm k ≤ k + preloadMax := by
  simp only [fetchedAfter]
  omega

theorem lt_fetchedAfter {n icm k : Nat} (hicm : 0 < icm) (hk : k < n * icm) :
    k < fetchedAfter n icm k := by
  have hpre : 0 < preloadMax := by decide
  simp only [fetchedAfter]
  omega

theorem fetchedAfter_zero {n : Nat} (hn : 0 < n) (icm : Nat) :
    fetchedAfter n icm 0 = min icm preloadMax := by
  have hframe := Nat.le_mul_of_pos_left icm hn
  simp only [fetchedAfter]
  omega

theorem fetchedAfter_succ_of_lt {n icm k : Nat} (h : fetchedAfter n icm k < n * icm) :
    fetchedAfter n icm (k + 1) = fetchedAfter n icm k + 1 := by
  simp only [fetchedAfter] at h ⊢
  omega

theorem fetchedAfter_succ_of_all {n icm k : Nat} (h : fetchedAfter n icm k = n * icm) :
    fetchedAfter n icm (k + 1) = n * icm := by
  simp only [fetchedAfter] at h ⊢
  omega

/-- Over an even length the preload is even: an even number of entries is always on the way. -/
theorem fetchedAfter_parity {n icm k : Nat} (heven : icm % 2 = 0)
    (h : fetchedAfter n icm k < n * icm) : fetchedAfter n icm k % 2 = k % 2 := by
  have hpre : preloadMax = 4 := rfl
  simp only [fetchedAfter] at h ⊢
  omega

/-- The driver's counts after `k` dequeues of a playback of `n` frames: `ict` has the parity of `k`, and
`reps` and `apt` say how many frames and how many entries of the next one are fetched. -/
structure FramesFetched (n k : Nat) (b : Block) : Prop where
  parity : b.ict % 2 = k % 2
  aptPos : 0 < b.apt
  aptLive : b.apt ≤ b.icm
  frame : ∃ r, b.reps.toNat + r = n ∧ r * b.icm + b.apt = fetchedAfter n b.icm k

/-- A started repeat takes one from a count that is not the infinite 0 (42 R107). -/
theorem repsAfterRepeat_toNat {b : Block} (h : 0 < b.reps.toNat) :
    (repsAfterRepeat b).toNat + 1 = b.reps.toNat := by
  have hone : 1#16 ≤ b.reps := h
  have hzero : b.reps ≠ 0#16 := fun hz => by simp [hz] at h
  rw [repsAfterRepeat, if_neg hzero, BitVec.toNat_sub_of_le hone]
  exact Nat.sub_add_cancel h

/-- `FEED` in a playback of frames of even length: it queues what it fetches. That a repeat, which sets
the count to 1, keeps its parity rests on the even length (20 R46, 42 R111). -/
theorem FramesFetched.feed {n k : Nat} {b : Block} (h : FramesFetched n k b) {cfg : Cfg}
    (hlive : inLiveEntries b) (hroom : b.fifo.length < cfg.fifoDepth) (heven : b.icm % 2 = 0) :
    FramesFetched n (k + 1) (Machine.feed cfg b) ∧
      (Machine.feed cfg b).fifo.length + fetchedAfter n b.icm k =
        b.fifo.length + fetchedAfter n b.icm (k + 1) ∧
      (Machine.feed cfg b).feedFault = b.feedFault := by
  obtain ⟨hparity, hpos, hapt, r, hreps, hframe⟩ := h
  have hle := fetchedAfter_le n b.icm k
  have hr : r < n := Nat.lt_of_mul_lt_mul_right (a := b.icm) (by omega)
  have hcounted : (b.ict + 1) % 2 = (k + 1) % 2 := by omega
  have hsucc : (r + 1) * b.icm = r * b.icm + b.icm := Nat.succ_mul r b.icm
  rcases feed_of_live hlive hroom with ⟨hlt, e⟩ | ⟨hend, hone, e⟩ | ⟨hend, hne, e⟩ <;> rw [e]
  case inl =>
    have hnext : (r + 1) * b.icm ≤ n * b.icm := Nat.mul_le_mul_right _ hr
    have hfetch := fetchedAfter_succ_of_lt (n := n) (icm := b.icm) (k := k) (by omega)
    refine ⟨⟨hcounted, Nat.succ_pos _, hlt, r, hreps, ?_⟩, ?_, rfl⟩
    · exact (congrArg (· + 1) hframe).trans hfetch.symm
    · rw [hfetch, List.length_append, List.length_singleton]
      omega
  case inr.inl =>
    have hlast : r + 1 = n := by simpa [hone, Nat.add_comm] using hreps
    have hall : fetchedAfter n b.icm k = n * b.icm := by
      rw [← hframe, hend, ← hsucc, hlast]
    have hfetch := (fetchedAfter_succ_of_all hall).trans hall.symm
    exact ⟨⟨hcounted, hpos, hapt, r, hreps, hframe.trans hfetch.symm⟩, by rw [hfetch], rfl⟩
  case inr.inr =>
    have hmore : b.reps.toNat ≠ 1 := fun hn => hne (BitVec.eq_of_toNat_eq hn)
    have hcount := repsAfterRepeat_toNat (b := b) (by omega)
    have hbegun : fetchedAfter n b.icm k = (r + 1) * b.icm := by rw [← hframe, hend, ← hsucc]
    have hlt : fetchedAfter n b.icm k < n * b.icm := by
      rw [hbegun]
      exact Nat.mul_lt_mul_of_pos_right (by omega) (by omega)
    have hfetch := fetchedAfter_succ_of_lt hlt
    have hk : k % 2 = 0 := by
      rw [← fetchedAfter_parity heven hlt, hbegun, Nat.mul_mod, heven, Nat.mul_zero, Nat.zero_mod]
    refine ⟨⟨?_, Nat.one_pos, hpos.trans_le hapt, r + 1, ?_, ?_⟩, ?_, rfl⟩
    · exact (Nat.succ_mod_two_eq_one_iff.mpr hk).symm
    · show (repsAfterRepeat b).toNat + (r + 1) = n
      omega
    · exact (congrArg (· + 1) hbegun).symm.trans hfetch.symm
    · rw [hfetch, List.length_append, List.length_singleton]
      omega

/-- The state `u` of the playback of `n` frames from `t`, before entry `k`, counted over all frames, is
dequeued. -/
structure FramesProgress (n : Nat) (t : State) (k : Nat) (u : State) : Prop where
  cfg : u.cfg = t.cfg
  arr : u.blk.arr = t.blk.arr
  icm : u.blk.icm = t.blk.icm
  active : u.blk.active = true
  running : u.blk.running = false
  feedFault : u.blk.feedFault = false
  fetched : FramesFetched n k u.blk
  queued : k + u.blk.fifo.length = fetchedAfter n u.blk.icm k
  phase : u.blk.phase = .X ↔ k % 2 = 0
  last : 0 < k → (u.blk.pin, u.blk.level) = markOrSpace (k - 1)
  played : ∃ l, u.trace = t.trace ++ l ∧
    l.map (fun g => (g.pin, g.level)) = (List.range k).map markOrSpace

/-- The level of a `FEED` rests on the parity of the count alone (42 R105). -/
theorem levelOfCount_congr {j k : Nat} (h : j % 2 = k % 2) : levelOfCount j = levelOfCount k := by
  simp only [levelOfCount, h]

/-- A dequeue and an elapse play one more entry. -/
theorem FramesProgress.next {n : Nat} {t u : State} {k : Nat} (h : FramesProgress n t k u)
    (hlegal : t.cfg.legal) (hlive : inLiveEntries t.blk) (heven : t.blk.icm % 2 = 0)
    (hk : k < n * t.blk.icm) : FramesProgress n t (k + 1) (tmrTurn (tmrTurn u)) := by
  obtain ⟨_, hdepth, _⟩ := hlegal
  obtain ⟨_, hicm, hstop, hentries⟩ := hlive
  have hpre : preloadMax = 4 := rfl
  have hpos := h.fetched.aptPos
  have hapt := h.fetched.aptLive
  have hqueued := h.queued
  rw [h.icm] at hapt hqueued
  have hsome := lt_fetchedAfter (hpos.trans_le hapt) hk
  have hfew := fetchedAfter_le_add n t.blk.icm k
  obtain ⟨w, rest, hq⟩ : ∃ w rest, u.blk.fifo = w :: rest :=
    List.exists_cons_of_length_pos (by omega)
  have hlen : u.blk.fifo.length = rest.length + 1 := by rw [hq]; rfl
  have hb : inLiveEntries (holdNext w rest u.blk) := by
    simp only [inLiveEntries, holdNext_apt, holdNext_icm, holdNext_arr, h.icm, h.arr]
    exact ⟨hapt, hicm, hstop, hentries⟩
  have hroom : rest.length < u.cfg.fifoDepth := by
    rw [h.cfg]
    omega
  have hheld : FramesFetched n k (holdNext w rest u.blk) :=
    ⟨h.fetched.parity, h.fetched.aptPos, h.fetched.aptLive, h.fetched.frame⟩
  obtain ⟨hfetched, hfifo, hfault⟩ := hheld.feed hb hroom (h.icm ▸ heven)
  simp only [holdNext_fifo, holdNext_icm, holdNext_feedFault, h.icm, h.feedFault] at hfifo hfault
  obtain ⟨l, htrace, hl⟩ := h.played
  have hmark : (pinOfPhase u.blk.phase, levelOfCount u.blk.ict) = markOrSpace k := by
    rw [levelOfCount_congr h.fetched.parity]
    exact markOrSpace_eq h.phase
  rw [tmrTurn_of_queued h.active h.running h.feedFault hq,
    tmrTurn_of_running (by simpa [feed_frame] using h.active) (by simp [feed_frame]) hfault]
  exact
    { cfg := h.cfg
      arr := by simpa [feed_frame] using h.arr
      icm := by simpa [feed_frame] using h.icm
      active := by simpa [feed_frame] using h.active
      running := rfl
      feedFault := hfault
      fetched := ⟨hfetched.parity, hfetched.aptPos, hfetched.aptLive, hfetched.frame⟩
      queued := by
        simp only [elapseStep_fifo, elapseStep_icm, feed_frame, holdNext_icm, h.icm]
        omega
      phase := by
        simp only [elapseStep_phase, feed_frame, holdNext_phase, flip_eq_X, h.phase]
        omega
      last := fun _ => by simpa [feed_frame] using hmark
      played := by
        refine ⟨l ++ [segmentOf (feed u.cfg (holdNext w rest u.blk)) w], ?_, ?_⟩
        · simp only [elapseStep_trace, htrace, List.append_assoc]
        · rw [List.map_append, hl, List.range_succ, List.map_append]
          simpa [segmentOf, feed_frame] using hmark }

/-- Up to the last entry of the last frame, two turns of TMR play one entry. -/
theorem FramesProgress.iterate {n : Nat} {t : State} (h : FramesProgress n t 0 t)
    (hlegal : t.cfg.legal) (hlive : inLiveEntries t.blk) (heven : t.blk.icm % 2 = 0) {k : Nat}
    (hk : k ≤ n * t.blk.icm) : FramesProgress n t k (tmrTurn^[2 * k] t) := by
  induction k with
  | zero => exact h
  | succ k ih =>
    rw [show 2 * (k + 1) = 2 * k + 1 + 1 from rfl, Function.iterate_succ_apply',
      Function.iterate_succ_apply']
    exact (ih (by omega)).next hlegal hlive heven hk

/-- `SEND n` of a non-empty sequence leaves its `n` frames to be played, the first entries of the first
one preloaded (42 R104). -/
theorem FramesProgress.afterSend {n : BitVec 16} {v : Bool} {s : State}
    (hfault : s.blk.feedFault = false) (hframes : 0 < n.toNat)
    (hpos : 0 < (afterSend n v s).blk.icm) :
    FramesProgress n.toNat (afterSend n v s) 0 (afterSend n v s) := by
  have hpreload := fetchedAfter_zero hframes (Machine.afterSend n v s).blk.icm
  exact
    { cfg := rfl
      arr := rfl
      icm := rfl
      active := rfl
      running := rfl
      feedFault := hfault
      fetched :=
        { parity := rfl
          aptPos := Nat.lt_min.mpr ⟨hpos, by decide⟩
          aptLive := Nat.min_le_left _ _
          frame := ⟨0, rfl, by rw [hpreload, Nat.zero_mul, Nat.zero_add]; rfl⟩ }
      queued := by
        rw [hpreload, Nat.zero_add]
        exact preload_length _ _
      phase := iff_of_true rfl rfl
      last := fun h => absurd h (Nat.lt_irrefl 0)
      played := ⟨[], (List.append_nil _).symm, rfl⟩ }

/-- Over an even length every frame begins with a mark (10 R11). -/
theorem markOrSpace_frames {icm : Nat} (heven : icm % 2 = 0) (n : Nat) :
    (List.range (n * icm)).map markOrSpace =
      (List.replicate n ((List.range icm).map markOrSpace)).flatten := by
  have hshift : ∀ j, markOrSpace (icm + j) = markOrSpace j := fun j => by
    simp only [markOrSpace, Nat.add_mod icm j, heven, Nat.zero_add, Nat.mod_mod]
  induction n with
  | zero => simp
  | succ n ih =>
    rw [Nat.succ_mul, Nat.add_comm, List.range_add, List.map_append, List.map_map,
      List.replicate_succ, List.flatten_cons, ← ih]
    simp only [Function.comp_def, hshift]

/-- A space is deasserted and off (10 R11). -/
theorem markOrSpace_eq_space {pin : Bool} {level : OnOff} {j : Nat} (h : (pin, level) = markOrSpace j)
    (hj : j % 2 = 1) : level = .off ∧ pin = false := by
  simp only [markOrSpace, hj, Nat.one_ne_zero, if_false, Prod.mk.injEq] at h
  exact h.symm

end Sys2Proof.Machine

namespace Sys2Proof.Proofs

open Sys2Proof.Machine

/-- Settles O49: an even length keeps the parity of the count through every repeat, so that each entry
has the level of its index over all frames, which is that of its index in its own frame. -/
theorem everyFrameHasItsLevels : Obligations.EveryFrameHasItsLevels := by
  intro s t u n v hs hfault hlegal hn ht hpos hrun
  rw [exec_send] at ht
  cases ht
  rw [run_of_unattended _ (show unattended (afterSend n v s) from hs)] at hrun
  cases hrun
  obtain ⟨_, _, _, _, hpadded⟩ := afterSend_live n v hlegal
  refine ⟨hpadded, fun heven => ?_⟩
  have hframes : 0 < n.toNat := Nat.pos_of_ne_zero fun h => hn (BitVec.eq_of_toNat_eq h)
  have hend := FramesProgress.iterate (.afterSend hfault hframes hpos) hlegal
    (afterSend_inLiveEntries n v hlegal) heven le_rfl
  have hsome : 0 < n.toNat * (afterSend n v s).blk.icm := Nat.mul_pos hframes hpos
  have hlen : (n.toNat * (afterSend n v s).blk.icm) % 2 = 0 := by simp [Nat.mul_mod, heven]
  obtain ⟨l, htrace, hl⟩ := hend.played
  refine ⟨?_, markOrSpace_eq_space (hend.last hsome) (by omega)⟩
  rw [htrace, List.drop_left, hl]
  exact markOrSpace_frames heven n.toNat

end Sys2Proof.Proofs

/-! ## The decoder, the encoder and the opcode table -/

namespace Sys2Proof

/-- The command with the operands the decoder reads from a word (30 R66). -/
def Instr.withOperandsOf (w : Command) : Instr → Instr
  | .transmit _ _ _ => .transmit (addressField w) (commandField w) (toggleField w)
  | .encode _ _ _ => .encode (addressField w) (commandField w) (toggleField w)
  | .bufrst => .bufrst
  | .append _ => .append (durationField w)
  | .add _ => .add (signedField w)
  | .trigger => .trigger
  | .send _ _ => .send (repeatsField w) (validateField w)
  | .busy => .busy
  | .cancel => .cancel

/-- The row of a command does not depend on its operands. -/
@[simp] theorem row_withOperandsOf (w : Command) (i : Instr) :
    (i.withOperandsOf w).row = i.row := by
  cases i <;> rfl

/-- Reading the operands of one word twice is reading them once. -/
@[simp] theorem withOperandsOf_idem (w : Command) (i : Instr) :
    (i.withOperandsOf w).withOperandsOf w = i.withOperandsOf w := by
  cases i <;> rfl

theorem selects_iff {r : Row} {w : Command} : r.selects w = true ↔ w &&& r.mask = r.pattern :=
  beq_iff_eq

/-- Every mask covers the opcode (30 R66). -/
theorem opcode_mask (i : Instr) : opcode i.row.mask = BitVec.allOnes 4 := by
  cases i <;> simp only [Instr.row] <;> rfl

/-- The opcode of a command (30 R65). -/
def Instr.opcodeNumber : Instr → Nat
  | .transmit _ _ _ => 1
  | .encode _ _ _ => 2
  | .bufrst => 3
  | .append _ => 4
  | .add _ => 5
  | .trigger => 6
  | .send _ _ => 7
  | .busy => 8
  | .cancel => 9

/-- The pattern of a row carries the command's opcode (30 R66). -/
theorem opcode_pattern (i : Instr) : (opcode i.row.pattern).toNat = i.opcodeNumber := by
  cases i <;> simp only [Instr.row] <;> rfl

theorem opcode_eq_pattern_iff {w : Command} {i : Instr} :
    opcode w = opcode i.row.pattern ↔ (opcode w).toNat = i.opcodeNumber := by
  rw [← opcode_pattern, BitVec.toNat_inj]

/-- The opcodes of the nine rows are 1 to 9 (30 R65). -/
theorem opcodeNumber_range (i : Instr) : 1 ≤ i.opcodeNumber ∧ i.opcodeNumber ≤ 9 := by
  cases i <;> simp [Instr.opcodeNumber]

/-- A word that selects a row has its opcode (30 R66). -/
theorem opcode_of_selects {i : Instr} {w : Command} (h : i.row.selects w = true) :
    opcode w = opcode i.row.pattern :=
  calc opcode w = opcode w &&& opcode i.row.mask := by rw [opcode_mask, BitVec.and_allOnes]
    _ = opcode (w &&& i.row.mask) := BitVec.extractLsb'_and.symm
    _ = opcode i.row.pattern := by rw [selects_iff.mp h]

/-- The opcode alone says which command is read, the fields of the word its operands (30 R65). -/
theorem commandOf_eq_some_iff {w : Command} {i : Instr} :
    commandOf w = some i ↔ (opcode w).toNat = i.opcodeNumber ∧ i.withOperandsOf w = i := by
  constructor
  · intro h
    unfold commandOf at h
    split at h <;> cases h <;> exact ⟨‹_›, rfl⟩
  · rintro ⟨hop, hi⟩
    rw [← hi, commandOf, hop]
    cases i <;> rfl

/-- A word with a row's opcode is read as that row's command, its other bits unseen (30 R65). -/
theorem commandOf_of_opcode {w : Command} {i : Instr} (h : opcode w = opcode i.row.pattern) :
    commandOf w = some (i.withOperandsOf w) := by
  rw [commandOf_eq_some_iff, ← opcode_eq_pattern_iff, row_withOperandsOf]
  exact ⟨h, withOperandsOf_idem w i⟩

/-- Two commands whose rows have the opcode of one word have the same row. -/
theorem row_eq_of_opcode {i j : Instr} {w : Command} (hi : opcode w = opcode i.row.pattern)
    (hj : opcode w = opcode j.row.pattern) : i.row = j.row := by
  have heq : i.withOperandsOf w = j.withOperandsOf w :=
    Option.some.inj ((commandOf_of_opcode hi).symm.trans (commandOf_of_opcode hj))
  simpa using congrArg Instr.row heq

/-- What the decoder accepts: a word that selects the command's row and holds its operands. -/
theorem decode_eq_ok_iff {w : Command} {i : Instr} :
    decode w = .ok i ↔ i.row.selects w = true ∧ i.withOperandsOf w = i := by
  constructor
  · intro h
    unfold decode at h
    split at h
    · cases h
    case h_2 j hj =>
      split at h <;> cases h
      exact ⟨‹_›, (commandOf_eq_some_iff.mp hj).2⟩
  · rintro ⟨hsel, hi⟩
    rw [decode, commandOf_of_opcode (opcode_of_selects hsel), hi]
    exact if_pos hsel

/-- A word with a reserved opcode, or with a 1 in a must-be-zero bit of its command, is no command's
word: such a word has the command's opcode, and the opcode fixes the row (30 R66, R70). -/
theorem decode_ne_ok_of_illegal {w : Command}
    (h : (opcode w).toNat = 0 ∨ 10 ≤ (opcode w).toNat ∨
      ∃ j : Instr, opcode w = opcode j.row.pattern ∧ w &&& j.row.mask ≠ j.row.pattern)
    (i : Instr) : decode w ≠ .ok i := by
  intro hdecode
  obtain ⟨hsel, _⟩ := decode_eq_ok_iff.mp hdecode
  have hop := opcode_of_selects hsel
  have hnumber := opcode_eq_pattern_iff.mp hop
  obtain ⟨hlow, hhigh⟩ := opcodeNumber_range i
  rcases h with hzero | hreserved | ⟨j, hj, hbits⟩
  · omega
  · omega
  · rw [row_eq_of_opcode hop hj] at hsel
    exact hbits (selects_iff.mp hsel)

/-! ### The fields of a word -/

/-- One bit of a word as a field of width 1. -/
theorem ofBool_getLsbD {n : Nat} (w : BitVec n) (k : Nat) :
    BitVec.ofBool (w.getLsbD k) = w.extractLsb' k 1 := by
  ext j hj
  simp [Nat.lt_one_iff.mp hj]

/-- The fields of a frame command's word are the operands it was made of (30 R66). -/
theorem frameWord_operands (hi : BitVec 19) (g : Bool) (a : BitVec 5) (c : BitVec 7) :
    addressField (hi ++ BitVec.ofBool g ++ a ++ c) = a ∧
    commandField (hi ++ BitVec.ofBool g ++ a ++ c) = c ∧
    toggleField (hi ++ BitVec.ofBool g ++ a ++ c) = g := by
  refine ⟨?_, BitVec.extractLsb'_append_eq_right, ?_⟩
  · exact (BitVec.extractLsb'_append_eq_of_le le_rfl).trans BitVec.extractLsb'_append_eq_right
  · simp only [toggleField, BitVec.getLsbD_append]
    simp

/-- The fields of a `SEND` word are the operands it was made of (30 R66). -/
theorem sendWord_operands (hi : BitVec 15) (v : Bool) (r : BitVec 16) :
    repeatsField (hi ++ BitVec.ofBool v ++ r) = r ∧
    validateField (hi ++ BitVec.ofBool v ++ r) = v := by
  refine ⟨BitVec.extractLsb'_append_eq_right, ?_⟩
  simp only [validateField, BitVec.getLsbD_append]
  simp

/-- The operand of `ADD` survives its 17 bits of two's complement when it fits them (30 R68). -/
theorem signedField_addWord (hi : BitVec 15) {t : Int} (h : addOperandFits t) :
    signedField (hi ++ BitVec.ofInt 17 t) = t := by
  obtain ⟨hlow, hhigh⟩ := h
  have hfield : (hi ++ BitVec.ofInt 17 t).extractLsb' 0 17 = BitVec.ofInt 17 t :=
    BitVec.extractLsb'_append_eq_right
  calc signedField (hi ++ BitVec.ofInt 17 t) = (BitVec.ofInt 17 t).toInt :=
        congrArg BitVec.toInt hfield
    _ = t := BitVec.toInt_ofInt_eq_self (by decide) (by omega) (by omega)

/-- What `ADD` reads from a word fits 17 bits of two's complement (30 R68). -/
theorem signedField_fits (w : Command) : addOperandFits (signedField w) := by
  have hlow := BitVec.le_toInt (w.extractLsb' 0 17)
  have hhigh := BitVec.toInt_lt (x := w.extractLsb' 0 17)
  simp only [addOperandFits, signedField]
  omega

/-- Under a mask of ones over zeros a pattern fixes the upper field. -/
theorem upper_of_masked {n m : Nat} {w : BitVec (n + m)} {p : BitVec n}
    (h : w &&& (BitVec.allOnes n ++ 0#m) = p ++ 0#m) : w.extractLsb' m n = p := by
  have hupper := congrArg (BitVec.extractLsb' m n) h
  rwa [BitVec.extractLsb'_and, BitVec.extractLsb'_append_eq_left,
    BitVec.extractLsb'_append_eq_left, BitVec.and_allOnes] at hupper

/-- Under a mask of ones over zeros a word is the pattern's upper field over its own lower bits. -/
theorem append_lower_of_masked {n m : Nat} {w : BitVec (n + m)} {p : BitVec n}
    (h : w &&& (BitVec.allOnes n ++ 0#m) = p ++ 0#m) : p ++ w.extractLsb' 0 m = w := by
  rw [← upper_of_masked h, BitVec.extractLsb'_append_extractLsb']

/-- A word of a frame command's row is its upper bits and its three fields (30 R66). -/
theorem frameWord_of_masked {w : Command} {p : BitVec 19}
    (h : w &&& (BitVec.allOnes 19 ++ 0#13) = p ++ 0#13) :
    p ++ BitVec.ofBool (toggleField w) ++ addressField w ++ commandField w = w := by
  rw [← upper_of_masked (n := 19) (m := 13) h, toggleField, ofBool_getLsbD, addressField,
    commandField]
  simp only [BitVec.extractLsb'_append_extractLsb'_eq_extractLsb', BitVec.extractLsb'_eq_self]

/-- A word of `SEND`'s row is its upper bits and its two fields (30 R66). -/
theorem sendWord_of_masked {w : Command} {p : BitVec 15}
    (h : w &&& (BitVec.allOnes 15 ++ 0#17) = p ++ 0#17) :
    p ++ BitVec.ofBool (validateField w) ++ repeatsField w = w := by
  rw [← upper_of_masked (n := 15) (m := 17) h, validateField, ofBool_getLsbD, repeatsField]
  simp only [BitVec.extractLsb'_append_extractLsb'_eq_extractLsb', BitVec.extractLsb'_eq_self]

/-- The row of a command without operands is selected by one word. -/
theorem eq_of_masked_allOnes {w p : Command} (h : w &&& BitVec.allOnes 32 = p) : p = w := by
  rw [← h, BitVec.and_allOnes]

/-! ### The encoder against the decoder -/

/-- The word of a well-formed command selects its row, for every command (30 R66). -/
theorem encode_selects_row (i : Instr) : Laws.EncodedWordSelectsRow.Statement i := by
  cases i with
  | transmit a c g => exact Laws.EncodedWordSelectsRow.transmit a c g
  | encode a c g => exact Laws.EncodedWordSelectsRow.encode a c g
  | bufrst => exact Laws.EncodedWordSelectsRow.bufrst
  | append d => exact Laws.EncodedWordSelectsRow.append d
  | add t => exact Laws.EncodedWordSelectsRow.add t
  | trigger => exact Laws.EncodedWordSelectsRow.trigger
  | send r v => exact Laws.EncodedWordSelectsRow.send r v
  | busy => exact Laws.EncodedWordSelectsRow.busy
  | cancel => exact Laws.EncodedWordSelectsRow.cancel

/-- The operands read from a command's word are the command's own. -/
theorem withOperandsOf_encode {i : Instr} (h : i.wf = true) : i.withOperandsOf (encode i) = i := by
  cases i with
  | transmit a c g =>
    exact (Instr.transmit.injEq ..).mpr (frameWord_operands (0x1#4 ++ 0#15) g a c)
  | encode a c g =>
    exact (Instr.encode.injEq ..).mpr (frameWord_operands (0x2#4 ++ 0#15) g a c)
  | append d => exact congrArg Instr.append BitVec.extractLsb'_append_eq_right
  | add t =>
    exact congrArg Instr.add (signedField_addWord (0x5#4 ++ 0#11) (of_decide_eq_true h))
  | send r v => exact (Instr.send.injEq ..).mpr (sendWord_operands (0x7#4 ++ 0#11) v r)
  | bufrst => rfl
  | trigger => rfl
  | busy => rfl
  | cancel => rfl

/-- Operands read from a word are in range. -/
theorem withOperandsOf_wf (w : Command) (i : Instr) : (i.withOperandsOf w).wf = true := by
  cases i with
  | add _ => exact decide_eq_true (signedField_fits w)
  | _ => rfl

/-- A word that selects a row is the word of that row's command with the operands read from it. -/
theorem encode_withOperandsOf {i : Instr} {w : Command} (h : i.row.selects w = true) :
    encode (i.withOperandsOf w) = w := by
  have hmask := selects_iff.mp h
  cases i with
  | transmit _ _ _ => exact frameWord_of_masked (p := 0x1#4 ++ 0#15) hmask
  | encode _ _ _ => exact frameWord_of_masked (p := 0x2#4 ++ 0#15) hmask
  | append _ => exact append_lower_of_masked (n := 16) (m := 16) (p := 0x4#4 ++ 0#12) hmask
  | add _ =>
    have hfield : BitVec.ofInt 17 (signedField w) = w.extractLsb' 0 17 := BitVec.ofInt_toInt
    rw [Instr.withOperandsOf, Sys2Proof.encode, hfield]
    exact append_lower_of_masked (n := 15) (m := 17) (p := 0x5#4 ++ 0#11) hmask
  | send _ _ => exact sendWord_of_masked (p := 0x7#4 ++ 0#11) hmask
  | bufrst => exact eq_of_masked_allOnes hmask
  | trigger => exact eq_of_masked_allOnes hmask
  | busy => exact eq_of_masked_allOnes hmask
  | cancel => exact eq_of_masked_allOnes hmask

/-- The word of a well-formed command decodes to it. -/
theorem decode_encode {i : Instr} (h : i.wf = true) : decode (encode i) = .ok i :=
  decode_eq_ok_iff.mpr ⟨encode_selects_row i h, withOperandsOf_encode h⟩

/-- A word that is a well-formed command's decodes to it. -/
theorem decode_of_encode_eq {w : Command} {i : Instr} (hw : encode i = w) (h : i.wf = true) :
    decode w = .ok i := hw ▸ decode_encode h

/-- A word of 32 bits is the word a table row of 32 bits carries. -/
theorem tableWord_toNat (w : Command) : tableWord 32 w.toNat = w := by
  rw [tableWord, Nat.mod_eq_of_lt w.isLt, BitVec.ofNat_toNat, BitVec.setWidth_eq]

/-! ### The frame field -/

/-- The sub-fields of `d`, two single bits over five over six, bit by bit (30 R61). -/
theorem getLsbD_frame (x y : Bool) (a : BitVec 5) (l : BitVec 6) :
    (BitVec.ofBool x ++ BitVec.ofBool y ++ a ++ l).getLsbD 12 = x ∧
    (BitVec.ofBool x ++ BitVec.ofBool y ++ a ++ l).getLsbD 11 = y ∧
    (∀ k < 5, (BitVec.ofBool x ++ BitVec.ofBool y ++ a ++ l).getLsbD (6 + k) = a.getLsbD k) ∧
    (∀ k < 6, (BitVec.ofBool x ++ BitVec.ofBool y ++ a ++ l).getLsbD k = l.getLsbD k) := by
  simp only [BitVec.getLsbD_append]
  refine ⟨?top, ?next, fun k hk => ?address, fun k hk => ?low⟩
  case top => simp
  case next => simp
  case address => simp [hk]
  case low => simp [hk]

namespace Machine

theorem getLsbD_commandLow6 (c : BitVec 7) {k : Nat} (hk : k < 6) :
    (commandLow6 c).getLsbD k = c.getLsbD k := by
  simp [commandLow6, hk]

/-! ### The host's turn on the command port -/

/-- A host turn laid down takes the next word (30 R64). -/
theorem step_of_hostTurn {s : State} {w : Command} {rest : List Command} {turns : List Turn}
    (hport : s.port = w :: rest) (hagenda : s.agenda = .host :: turns) :
    step s = acceptWord w { s with port := rest, agenda := turns } := by
  simp only [step, nextTurn, hagenda, hostTurn, hport]

/-- With no turn laid down the host takes the next word too. -/
theorem step_of_noTurn {s : State} {w : Command} {rest : List Command}
    (hport : s.port = w :: rest) (hagenda : s.agenda = []) :
    step s = acceptWord w { s with port := rest } := by
  simp only [step, nextTurn, hagenda, defaultTurn, hport]

/-- A word that decodes runs its command (30 R64). -/
theorem acceptWord_of_decode {w : Command} {i : Instr} (h : decode w = .ok i) (s : State) :
    acceptWord w s = exec i s := by
  simp only [acceptWord, h]

/-- A word that is no command's raises `IllegalCommandFault` (30 R70). -/
theorem acceptWord_of_illegal {w : Command} (h : ∀ i, decode w ≠ .ok i) (s : State) :
    acceptWord w s = .next (s.takeHostFault (.illegalCommand w)) := by
  unfold acceptWord
  split
  case h_1 i hi => exact absurd hi (h i)
  case h_2 => rfl

end Machine

end Sys2Proof

/-! ## Decoding and encoding, the frame field, the statuses -/

namespace Sys2Proof.Proofs

open Sys2Proof.Machine

/-- Settles O4: the word selects the command's row, and its fields are the command's operands. -/
theorem decodeOfEncode : Obligations.DecodeOfEncode :=
  fun _ h => decode_encode h

/-- Settles O2: the word decodes to no command, and the fault it is answered with writes the response
only. -/
theorem illegalWordChangesNothing : Obligations.IllegalWordChangesNothing := by
  intro s w rest turns hillegal hport hagenda
  rw [step_of_hostTurn hport hagenda, acceptWord_of_illegal (decode_ne_ok_of_illegal hillegal)]
  rfl

/-- Settles O5: the row fixes the bits outside the fields, and the fields are the operands. -/
theorem encodeOfDecode : Obligations.EncodeOfDecode := by
  intro w i h
  obtain ⟨hsel, hi⟩ := decode_eq_ok_iff.mp h
  rw [← hi]
  exact ⟨encode_withOperandsOf hsel, withOperandsOf_wf w i⟩

/-- Settles O7: each field order puts its two bits over the address and the low command bits. -/
theorem frameFieldBits : Obligations.FrameFieldBits := by
  intro a c g order
  cases order with
  | doc =>
    obtain ⟨h12, h11, haddress, hlow⟩ := getLsbD_frame g (invertedBit6 c) a (commandLow6 c)
    exact ⟨fun _ => ⟨h12, h11⟩, nofun, haddress,
      fun k hk => (hlow k hk).trans (getLsbD_commandLow6 c hk)⟩
  | rc5std =>
    obtain ⟨h12, h11, haddress, hlow⟩ := getLsbD_frame (invertedBit6 c) g a (commandLow6 c)
    exact ⟨nofun, fun _ => ⟨h12, h11⟩, haddress,
      fun k hk => (hlow k hk).trans (getLsbD_commandLow6 c hk)⟩

/-- Settles O1: the host's turn takes the word, and a word offered leaves the state it was offered in
when it is taken. -/
theorem stepRunsDecodedCommand : Obligations.StepRunsDecodedCommand := by
  intro s w rest turns i hdecode hport
  refine ⟨fun hagenda => ?_, fun hagenda => ?_, ?_⟩
  · rw [step_of_hostTurn hport hagenda, acceptWord_of_decode hdecode]
  · rw [step_of_noTurn hport hagenda, acceptWord_of_decode hdecode]
  · rw [State.withFetchWord, tableWord_toNat,
      step_of_hostTurn (offerWord_port w s) (offerWord_agenda w s), acceptWord_of_decode hdecode]
    rfl

/-- Settles O3: each word is its command's, bit for bit. -/
theorem writtenWordsDecode : Obligations.WrittenWordsDecode :=
  ⟨decode_of_encode_eq rfl rfl, decode_of_encode_eq rfl rfl, decode_of_encode_eq rfl rfl,
    decode_of_encode_eq rfl rfl, decode_of_encode_eq rfl rfl, decode_of_encode_eq rfl rfl,
    decode_of_encode_eq rfl rfl, decode_of_encode_eq rfl rfl, decode_of_encode_eq rfl rfl,
    decode_of_encode_eq rfl rfl, decode_of_encode_eq rfl rfl⟩

/-- Settles O6: a selected row has the word's opcode, and the opcode fixes the row. -/
theorem rowsAreDisjoint : Obligations.RowsAreDisjoint :=
  fun _ _ _ hi hj => row_eq_of_opcode (opcode_of_selects hi) (opcode_of_selects hj)

/-- Settles O8: the numbers are read off the table of 30 R71. -/
theorem statusNumbering : Obligations.StatusNumbering :=
  ⟨rfl, fun _ _ _ _ => ⟨rfl, rfl, rfl, rfl, rfl⟩⟩

end Sys2Proof.Proofs

/-! ## The RC5 coding of a frame: lengths, sums, the signal, the merges -/

namespace Sys2Proof.Machine

@[simp] theorem frameBits_length (d : BitVec 13) : (frameBits d).length = 13 := by
  simp [frameBits]

/-- The bits sent determine the frame. -/
theorem frameBits_injective : Function.Injective frameBits := by
  intro d d' h
  apply BitVec.eq_of_getLsbD_eq
  intro i hi
  have hmap := List.map_inj_left.mp h (12 - i)
    (List.mem_range.mpr (by simp only [dataBits]; omega))
  rwa [show 12 - (12 - i) = i by omega] at hmap

/-- The last of the first `k` bits sent, `prev` when none is. -/
theorem getLast_take_frameBits (d : BitVec 13) (prev : Bool) {k : Nat} (hk : k ≤ 13) :
    ((frameBits d).take k).getLast?.getD prev = if k = 0 then prev else d.getLsbD (13 - k) := by
  have hmin : min k 13 = k := Nat.min_eq_left hk
  simp only [frameBits, dataBits, ← List.map_take, List.take_range, hmin, List.getLast?_map,
    List.getLast?_range]
  split
  · rfl
  · simp only [Option.map_some, Option.getD_some]
    congr 1
    omega

/-- The last bit sent is `d[0]`. -/
theorem getLast_frameBits (d : BitVec 13) (prev : Bool) :
    (frameBits d).getLast?.getD prev = d.getLsbD 0 := by
  rw [← List.take_of_length_le (frameBits_length d).le, getLast_take_frameBits d prev le_rfl]
  rfl

theorem getLast_cons (prev bit : Bool) (rest : List Bool) :
    (bit :: rest).getLast?.getD prev = rest.getLast?.getD bit := by
  rw [List.getLast?_cons, Option.getD_some]

theorem desired_eq_on (bit : Bool) : desired bit = .on ↔ bit = true := by
  cases bit <;> decide

@[simp] theorem flip_desired (bit : Bool) : (desired bit).flip = desired (!bit) := by
  cases bit <;> rfl

/-- The entries that are complete once `bit` is sent after `prev`: the half bit in progress and the
opposite half, or both merged (40 R84). -/
def completedBy (prev bit : Bool) : List Entry :=
  if bit = prev then [tHalf, tHalf] else [tHalf + tHalf]

/-- A bit completes entries and leaves a half bit in progress. -/
theorem entriesAfter_cons (prev bit : Bool) (rest : List Bool) :
    entriesAfter prev tHalf (bit :: rest) = completedBy prev bit ++ entriesAfter bit tHalf rest := by
  by_cases h : bit = prev <;> simp [entriesAfter, completedBy, h]

/-- Each bit adds two entries, a merge one (40 R86). -/
theorem entriesAfter_length_add_merges (prev : Bool) (last : Entry) (bits : List Bool) :
    (entriesAfter prev last bits).length + mergesAfter prev bits = 2 * bits.length + 1 := by
  induction bits generalizing prev last with
  | nil => rfl
  | cons bit rest ih =>
    have hrest := ih bit tHalf
    by_cases h : bit = prev
    · simp only [entriesAfter, mergesAfter, if_pos h, List.length_cons]
      omega
    · simp only [entriesAfter, mergesAfter, if_neg h, List.length_cons]
      omega

theorem mergesAfter_le (prev : Bool) (bits : List Bool) : mergesAfter prev bits ≤ bits.length := by
  induction bits generalizing prev with
  | nil => rfl
  | cons bit rest ih =>
    have hrest := ih bit
    simp only [mergesAfter, List.length_cons]
    split <;> omega

theorem entriesAfter_length_pos (prev : Bool) (last : Entry) (bits : List Bool) :
    0 < (entriesAfter prev last bits).length := by
  have hlength := entriesAfter_length_add_merges prev last bits
  have hmerges := mergesAfter_le prev bits
  omega

theorem merges_le (d : BitVec 13) : merges d ≤ 13 :=
  (mergesAfter_le true (frameBits d)).trans_eq (frameBits_length d)

/-- 40 R86. -/
theorem frameEntries_length (d : BitVec 13) : (frameEntries d).length = 27 - merges d := by
  have hlength := entriesAfter_length_add_merges true tHalf (frameBits d)
  rw [frameBits_length] at hlength
  simp only [frameEntries, merges]
  omega

/-- An entry of the coding lasts one half bit, or two after a merge (40 R87). -/
theorem mem_entriesAfter (prev : Bool) (bits : List Bool) :
    ∀ e ∈ entriesAfter prev tHalf bits, e = tHalf ∨ e = tHalf + tHalf := by
  induction bits generalizing prev with
  | nil => simp [entriesAfter]
  | cons bit rest ih =>
    by_cases h : bit = prev
    · simpa [entriesAfter, h] using h ▸ ih bit
    · simpa [entriesAfter, h] using ih bit

/-- Merged or not, a bit takes two half bits of time (40 R85). -/
theorem sum_entriesAfter (prev : Bool) (bits : List Bool) :
    ((entriesAfter prev tHalf bits).map BitVec.toNat).sum =
      tHalf.toNat * (2 * bits.length + 1) := by
  induction bits generalizing prev with
  | nil => rfl
  | cons bit rest ih =>
    have hmerged : (tHalf + tHalf).toNat = 2 * tHalf.toNat := by decide
    by_cases h : bit = prev
    · simp only [entriesAfter, if_pos h, List.map_cons, List.sum_cons, ih, List.length_cons]
      ring
    · simp only [entriesAfter, if_neg h, List.map_cons, List.sum_cons, ih, List.length_cons, hmerged]
      ring

/-- The signal of the entries is the biphase coding: the half bit in progress, then each bit as the
opposite polarity and its own (40 R88). -/
theorem halfBits_entriesAfter (prev : Bool) (bits : List Bool) :
    halfBits (desired prev) (entriesAfter prev tHalf bits) =
      desired prev :: bits.flatMap fun bit => [desired (!bit), desired bit] := by
  have one : tHalf.toNat / tHalf.toNat = 1 := by decide
  have two : (tHalf + tHalf).toNat / tHalf.toNat = 2 := by decide
  induction bits generalizing prev with
  | nil => simp [entriesAfter, halfBits]
  | cons bit rest ih =>
    by_cases h : bit = prev
    · subst h
      simp [entriesAfter, halfBits, ih]
    · obtain rfl : prev = !bit := Bool.eq_not.mpr (Ne.symm h)
      simp only [entriesAfter, if_neg h, halfBits, two, flip_desired, Bool.not_not, ih,
        List.flatMap_cons]
      rfl

/-- No merge: every bit repeats the one before it. -/
theorem mergesAfter_eq_zero_iff (prev : Bool) (bits : List Bool) :
    mergesAfter prev bits = 0 ↔ bits = List.replicate bits.length prev := by
  induction bits generalizing prev with
  | nil => simp [mergesAfter]
  | cons bit rest ih =>
    by_cases h : bit = prev
    · subst h
      simpa [mergesAfter, List.replicate_succ] using ih bit
    · simp [mergesAfter, List.replicate_succ, h]

/-- A merge at every bit: the bits alternate. -/
theorem mergesAfter_eq_length_iff (prev : Bool) (bits : List Bool) :
    mergesAfter prev bits = bits.length ↔ bits = List.iterate not (!prev) bits.length := by
  induction bits generalizing prev with
  | nil => simp [mergesAfter]
  | cons bit rest ih =>
    by_cases h : bit = prev
    · have hle := mergesAfter_le bit rest
      have hne : bit ≠ !prev := by simp [h]
      simp only [mergesAfter, if_pos h, List.length_cons, List.iterate, List.cons.injEq, hne,
        false_and, iff_false]
      omega
    · obtain rfl : bit = !prev := Bool.eq_not.mpr h
      simpa [mergesAfter, List.iterate, Nat.add_comm 1] using ih (!prev)

end Sys2Proof.Machine

namespace Sys2Proof.Proofs

open Sys2Proof.Machine

/-- Settles O21: the bits of a frame without a merge are all 1, those of a frame with 13 alternate. -/
theorem mergesExtremes : Obligations.MergesExtremes := by
  intro d
  have hones : frameBits 0b1111111111111#13 = List.replicate 13 true := by decide
  have halternating : frameBits 0b0101010101010#13 = List.iterate not false 13 := by decide
  have hnone := mergesAfter_eq_zero_iff true (frameBits d)
  have hall := mergesAfter_eq_length_iff true (frameBits d)
  rw [frameBits_length] at hnone hall
  refine ⟨merges_le d, ?_, ?_⟩
  · rw [merges, hnone, ← hones, frameBits_injective.eq_iff]
  · rw [merges, hall, Bool.not_true, ← halternating, frameBits_injective.eq_iff]

end Sys2Proof.Proofs

/-! ## Appending to the buffer under any turns of TMR

A composite that appends is followed by the entries it has written from the pointer it began at. TMR's
turns between its primitives touch none of that, so they are dealt with once, in
`runComposite_of_done`. -/

namespace Sys2Proof.Machine

/-- The two states have the same buffer, configuration and port. -/
structure SameBuffer (s u : State) : Prop where
  arr : u.blk.arr = s.blk.arr
  aptr : u.blk.aptr = s.blk.aptr
  carrier : u.blk.carrier = s.blk.carrier
  cfg : u.cfg = s.cfg
  port : u.port = s.port

theorem SameBuffer.trans {s u v : State} (h : SameBuffer s u) (h' : SameBuffer u v) :
    SameBuffer s v where
  arr := h'.arr.trans h.arr
  aptr := h'.aptr.trans h.aptr
  carrier := h'.carrier.trans h.carrier
  cfg := h'.cfg.trans h.cfg
  port := h'.port.trans h.port

theorem SameBuffer.tmrTurn (s : State) : SameBuffer s (tmrTurn s) := by
  obtain ⟨harr, haptr, hcarrier, _, _, _, hcfg, hport, _⟩ := tmrTurn_frame s
  exact ⟨harr, haptr, hcarrier, hcfg, hport⟩

/-- Without RESET the host comes to its next primitive with the buffer as it left it (60 R141). -/
theorem interlude_of_noReset {l : List Turn} (s : State) (hl : noReset l) :
    ∃ u, interlude l s = (u, true) ∧ SameBuffer s u ∧ noReset u.agenda := by
  induction l generalizing s with
  | nil => exact ⟨_, rfl, ⟨rfl, rfl, rfl, rfl, rfl⟩, hl⟩
  | cons τ rest ih =>
    obtain ⟨hτ, hrest⟩ := List.forall_mem_cons.mp hl
    cases τ with
    | host => exact ⟨_, rfl, ⟨rfl, rfl, rfl, rfl, rfl⟩, hrest⟩
    | tmr =>
      obtain ⟨u, hu, hsame, hturns⟩ := ih (tmrTurn s) hrest
      exact ⟨u, hu, (SameBuffer.tmrTurn s).trans hsame, hturns⟩
    | reset => exact absurd rfl hτ

/-- A primitive that has its effect, and the turns after it: the rest of the composite runs on. -/
theorem runComposite_of_done {p : Primitive} {s t : State} (ps : List Primitive)
    (h : perform p s = .done t) (hturns : noReset t.agenda) :
    ∃ u, runComposite (p :: ps) s = runComposite ps u ∧ SameBuffer t u ∧ noReset u.agenda := by
  cases ps with
  | nil => exact ⟨t, by simp only [runComposite, h, finish], ⟨rfl, rfl, rfl, rfl, rfl⟩, hturns⟩
  | cons q rest =>
    obtain ⟨u, hu, hsame, hturns'⟩ := interlude_of_noReset t hturns
    exact ⟨u, by simp only [runComposite, h, hu], hsame, hturns'⟩

/-- A composite ends at the first primitive that faults (60 R136). -/
theorem runComposite_of_raises {p : Primitive} {s : State} {f : HostFault} (ps : List Primitive)
    (h : perform p s = .raises f) : runComposite (p :: ps) s = .next (s.takeHostFault f) := by
  cases ps with
  | nil => simp only [runComposite, h, finish]
  | cons q rest => simp only [runComposite, h]

theorem entriesFrom_succ (m : Memory) (lo n : Nat) :
    entriesFrom m lo (n + 1) = entriesFrom m lo n ++ [m.read (lo + n)] := by
  simp [entriesFrom, List.range_succ]

/-- A write behind the entries looked at changes none of them. -/
theorem entriesFrom_write (m : Memory) (lo n : Nat) (v : Entry) :
    entriesFrom (m.write (lo + n) v) lo n = entriesFrom m lo n := by
  refine List.map_congr_left fun k hk => Memory.read_write_other m v ?_
  have hlt := List.mem_range.mp hk
  omega

/-- Since `s₀` the entries `es` have been written from the pointer on and nothing else of the buffer,
`carrier` is now `c`, and no RESET is laid down. -/
structure Appended (s₀ : State) (c : OnOff) (es : List Entry) (s : State) : Prop where
  cfg : s.cfg = s₀.cfg
  port : s.port = s₀.port
  turns : noReset s.agenda
  aptr : s.blk.aptr = s₀.blk.aptr + es.length
  room : s.blk.aptr ≤ CAP
  carrier : s.blk.carrier = c
  written : entriesFrom s.blk.arr s₀.blk.aptr es.length = es
  untouched : ∀ i, i < s₀.blk.aptr ∨ s.blk.aptr ≤ i → s.blk.arr.read i = s₀.blk.arr.read i

/-- `s₀` was left at a full buffer, with what lay below its pointer untouched (60 R136). -/
structure Overflowed (s₀ t : State) : Prop where
  response : t.response = faultResponse (.bufferOverflow CAP)
  aptr : t.blk.aptr = CAP
  untouched : ∀ i < s₀.blk.aptr, t.blk.arr.read i = s₀.blk.arr.read i

/-- From `s` the primitives `ps` bring what is written since `s₀` to `es`, or they overflow because
`es` does not fit. -/
def Appends (s₀ s : State) (c : OnOff) (es : List Entry) (ps : List Primitive) : Prop :=
  ∀ rest,
    (∃ t, runComposite (ps ++ rest) s = runComposite rest t ∧ Appended s₀ c es t) ∨
    (CAP < s₀.blk.aptr + es.length ∧
      ∃ t, runComposite (ps ++ rest) s = .next t ∧ Overflowed s₀ t)

variable {s₀ s t : State} {c c' : OnOff} {es es' : List Entry}

theorem Appended.start (hroom : s.blk.aptr ≤ CAP) (hturns : noReset s.agenda) :
    Appended s s.blk.carrier [] s :=
  ⟨rfl, rfl, hturns, rfl, hroom, rfl, rfl, fun _ _ => rfl⟩

/-- From an empty buffer the entries written are the buffer up to the pointer. -/
theorem Appended.of_empty (h : Appended s₀ c es s) (hempty : s₀.blk.aptr = 0) :
    s.blk.aptr = es.length ∧ entriesFrom s.blk.arr 0 s.blk.aptr = es := by
  have haptr := h.aptr
  have hwritten := h.written
  rw [hempty, Nat.zero_add] at haptr
  rw [hempty, ← haptr] at hwritten
  exact ⟨haptr, hwritten⟩

theorem Appended.of_sameBuffer (h : Appended s₀ c es s) (hu : SameBuffer s t)
    (hturns : noReset t.agenda) : Appended s₀ c es t where
  cfg := hu.cfg.trans h.cfg
  port := hu.port.trans h.port
  turns := hturns
  aptr := hu.aptr.trans h.aptr
  room := hu.aptr ▸ h.room
  carrier := hu.carrier.trans h.carrier
  written := hu.arr ▸ h.written
  untouched := hu.arr ▸ hu.aptr ▸ h.untouched

theorem Appends.nil (h : Appended s₀ c es s) : Appends s₀ s c es [] :=
  fun _ => .inl ⟨s, rfl, h⟩

/-- Two composites one after the other. -/
theorem Appends.trans {ps qs : List Primitive} (h : Appends s₀ s c es ps)
    (hlen : es.length ≤ es'.length) (hnext : ∀ t, Appended s₀ c es t → Appends s₀ t c' es' qs) :
    Appends s₀ s c' es' (ps ++ qs) := by
  intro rest
  rw [List.append_assoc]
  rcases h (qs ++ rest) with ⟨t, ht, hwritten⟩ | ⟨hfull, hover⟩
  · rw [ht]
    exact hnext t hwritten rest
  · exact .inr ⟨by omega, hover⟩

/-- One primitive that has its effect, and the turns after it. -/
theorem Appends.of_done {p : Primitive} (h : perform p s = .done t) (ht : Appended s₀ c es t) :
    Appends s₀ s c es [p] := by
  intro rest
  obtain ⟨u, hu, hsame, hturns⟩ := runComposite_of_done rest h ht.turns
  exact .inl ⟨u, hu, ht.of_sameBuffer hsame hturns⟩

/-- What `APPEND` writes (41 R91). -/
theorem Appended.append (h : Appended s₀ c es s) (d : Entry) (hroom : s.blk.aptr < CAP) :
    Appended s₀ c.flip (es ++ [d]) { s with
      blk := { s.blk with
        arr := s.blk.arr.write s.blk.aptr d, aptr := s.blk.aptr + 1,
        carrier := s.blk.carrier.flip } } where
  cfg := h.cfg
  port := h.port
  turns := h.turns
  aptr := by simp [h.aptr, Nat.add_assoc]
  room := hroom
  carrier := congrArg OnOff.flip h.carrier
  written := by
    simp only [List.length_append, List.length_singleton, entriesFrom_succ, h.aptr,
      entriesFrom_write, h.written, Memory.read_write_same]
  untouched i hi := by
    have haptr := h.aptr
    simp only at hi ⊢
    rw [Memory.read_write_other _ _ (by omega)]
    exact h.untouched i (by omega)

/-- What `ADD` writes: the last entry again (41 R92). -/
theorem Appended.extend {e : Entry} (h : Appended s₀ c (es ++ [e]) s) (e' : Entry) :
    Appended s₀ c (es ++ [e']) { s with
      blk := { s.blk with arr := s.blk.arr.write (s.blk.aptr - 1) e' } } := by
  have haptr := h.aptr
  rw [List.length_append, List.length_singleton] at haptr
  have hlast : s.blk.aptr - 1 = s₀.blk.aptr + es.length := by omega
  have hwritten := h.written
  simp only [List.length_append, List.length_singleton, entriesFrom_succ] at hwritten
  refine { h with aptr := by simpa using h.aptr, written := ?_, untouched := fun i hi => ?_ }
  · simp only [List.length_append, List.length_singleton, entriesFrom_succ, hlast,
      entriesFrom_write, Memory.read_write_same, List.append_inj_left' hwritten rfl]
  · simp only at hi ⊢
    rw [Memory.read_write_other _ _ (by omega)]
    exact h.untouched i hi

theorem Appended.last {e : Entry} (h : Appended s₀ c (es ++ [e]) s) :
    s.blk.arr.read (s.blk.aptr - 1) = e := by
  have hwritten := h.written
  simp only [List.length_append, List.length_singleton, entriesFrom_succ] at hwritten
  rw [h.aptr]
  simpa using List.append_inj_right' hwritten rfl

/-- A primitive that is an `APPEND` adds an entry and flips, or finds the buffer full (41 R91). -/
theorem Appended.appends_append (h : Appended s₀ c es s) {p : Primitive} {d : Entry}
    (hp : perform p s = appendPrim d s) : Appends s₀ s c.flip (es ++ [d]) [p] := by
  have haptr := h.aptr
  have hroom := h.room
  rcases appendPrim_cases d s with ⟨hfull, e⟩ | ⟨hfits, e⟩
  · intro rest
    have hcap : s.blk.aptr = CAP := Nat.le_antisymm hroom hfull
    refine .inr ⟨by simp only [List.length_append, List.length_singleton]; omega, _,
      runComposite_of_raises rest (hp.trans e), ?_, hcap, fun i hi => h.untouched i (.inl hi)⟩
    simp [hcap]
  · exact .of_done (hp.trans e) (h.append d hfits)

/-- `ADD T_HALF` on a half bit makes it a whole one: no check of 41 R92 fails. -/
theorem Appended.appends_add (h : Appended s₀ c (es ++ [tHalf]) s) {p : Primitive}
    (hp : perform p s = addPrim tHalf.toNat s) :
    Appends s₀ s c (es ++ [tHalf + tHalf]) [p] := by
  have haptr := h.aptr
  have hroom := h.room
  have hsum : extendedEntry tHalf tHalf.toNat ≤ entryMax := by decide
  have hvalue : BitVec.ofInt 16 (extendedEntry tHalf tHalf.toNat) = tHalf + tHalf := by decide
  rw [List.length_append, List.length_singleton] at haptr
  rcases addPrim_cases tHalf.toNat s with ⟨hneg, _⟩ | ⟨_, hzero, _⟩ | ⟨_, hout, _⟩ |
    ⟨_, _, _, hover, _⟩ | ⟨_, _, _, _, e⟩
  · exact absurd hneg (by decide)
  · omega
  · omega
  · rw [h.last] at hover
    omega
  · rw [h.last, hvalue] at e
    exact .of_done (hp.trans e) (h.extend _)

/-! ### The encoder -/

/-- One frame bit after a half bit of the polarity `prev` (40 R80, R82, R83): two more half bits, or
the last one lengthened and one more. -/
theorem Appended.appends_bit {prev : Bool} (h : Appended s₀ (desired prev) (es ++ [tHalf]) s)
    (bit : Bool) :
    Appends s₀ s (desired bit) (es ++ completedBy prev bit ++ [tHalf]) (bitPrimitives bit) := by
  have hcarrier := h.carrier
  by_cases hbit : bit = prev
  · subst hbit
    have hp : perform (.encodeBit (desired bit)) s = appendPrim tHalf s := by
      simp [perform, encodeBitPrim, hcarrier]
    refine (h.appends_append hp).trans (by simp [completedBy]) fun t ht => ?_
    simpa [completedBy] using ht.appends_append (p := .append tHalf) rfl
  · obtain rfl : prev = !bit := Bool.eq_not.mpr (Ne.symm hbit)
    have hp : perform (.encodeBit (desired bit)) s = addPrim tHalf.toNat s := by
      have hmerge : desired bit ≠ desired !bit := by cases bit <;> decide
      simp [perform, encodeBitPrim, hcarrier, hmerge]
    refine (h.appends_add hp).trans (by simp [completedBy]) fun t ht => ?_
    simpa [completedBy] using ht.appends_append (p := .append tHalf) rfl

/-- The bits sent after `prev` append the entries of the coding, the last entry so far among them, and
leave `carrier` at the last bit (40 R84). -/
theorem Appended.appends_bits {prev : Bool} (bits : List Bool)
    (h : Appended s₀ (desired prev) (es ++ [tHalf]) s) :
    Appends s₀ s (desired (bits.getLast?.getD prev)) (es ++ entriesAfter prev tHalf bits)
      (bits.flatMap bitPrimitives) := by
  induction bits generalizing prev es s with
  | nil => exact .nil h
  | cons bit rest ih =>
    have hpos := entriesAfter_length_pos bit tHalf rest
    rw [getLast_cons, List.flatMap_cons, entriesAfter_cons, ← List.append_assoc]
    refine (h.appends_bit bit).trans ?_ fun t ht => ih ht
    simp only [List.length_append, List.length_singleton]
    omega

/-- The start symbol and then `bits`, from any pointer and any polarity. -/
theorem appends_start_bits {prev : Bool} (bits : List Bool) (hroom : s.blk.aptr ≤ CAP)
    (hturns : noReset s.agenda) (hcarrier : s.blk.carrier = desired (!prev)) :
    Appends s s (desired (bits.getLast?.getD prev)) (entriesAfter prev tHalf bits)
      (.append tHalf :: bits.flatMap bitPrimitives) := by
  have hstart := (Appended.start hroom hturns).appends_append (p := .append tHalf) rfl
  rw [hcarrier, flip_desired, Bool.not_not] at hstart
  exact hstart.trans (entriesAfter_length_pos prev tHalf bits) fun t ht => ht.appends_bits bits

/-- A composite that only appends completes, or stops at a full buffer. -/
theorem Appends.runComposite {ps : List Primitive} (h : Appends s₀ s c es ps) :
    (∃ t, Machine.runComposite ps s = .next t ∧ t.response = okResponse ∧ Appended s₀ c es t) ∨
    (CAP < s₀.blk.aptr + es.length ∧
      ∃ t, Machine.runComposite ps s = .next t ∧ Overflowed s₀ t) := by
  have hend := h []
  rw [List.append_nil] at hend
  exact hend.imp_left fun ⟨t, ht, hwritten⟩ =>
    ⟨t.respondOk, ht, rfl, hwritten.of_sameBuffer ⟨rfl, rfl, rfl, rfl, rfl⟩ hwritten.turns⟩

/-- A composite whose entries fit completes. -/
theorem Appends.completes {ps : List Primitive} (h : Appends s₀ s c es ps)
    (hfits : s₀.blk.aptr + es.length ≤ CAP) :
    ∃ t, Machine.runComposite ps s = .next t ∧ t.response = okResponse ∧ Appended s₀ c es t :=
  h.runComposite.resolve_right fun ⟨hfull, _⟩ => absurd hfull (Nat.not_lt.mpr hfits)

/-- The start symbol and up to 13 bits fit into an empty buffer. -/
theorem runComposite_start_bits (bits : List Bool) (hbits : bits.length ≤ dataBits)
    (hempty : s.blk.aptr = 0) (hoff : s.blk.carrier = .off) (hturns : noReset s.agenda) :
    ∃ t, runComposite (.append tHalf :: bits.flatMap bitPrimitives) s = .next t ∧
      t.response = okResponse ∧
      Appended s (desired (bits.getLast?.getD true)) (entriesAfter true tHalf bits) t := by
  have hlen := entriesAfter_length_add_merges true tHalf bits
  simp only [dataBits] at hbits
  refine (appends_start_bits (prev := true) bits (hempty ▸ Nat.zero_le _) hturns hoff).completes ?_
  simp only [hempty, CAP]
  omega

/-- `ENCODE` from an empty buffer, whatever TMR does meanwhile. -/
theorem exec_encode_of_empty (a : BitVec 5) (c : BitVec 7) (g : Bool) (hempty : s.blk.aptr = 0)
    (hoff : s.blk.carrier = .off) (hturns : noReset s.agenda) :
    ∃ t, exec (.encode a c g) s = .next t ∧ t.response = okResponse ∧
      Appended s (desired (c.getLsbD 0)) (frameEntries (frameField s.cfg.fieldOrder a c g)) t := by
  have hlast : (frameField s.cfg.fieldOrder a c g).getLsbD 0 = c.getLsbD 0 := by
    obtain ⟨_, _, _, hlow⟩ := Proofs.frameFieldBits a c g s.cfg.fieldOrder
    exact hlow 0 (by decide)
  rw [← hlast, ← getLast_frameBits _ true]
  exact runComposite_start_bits (frameBits (frameField s.cfg.fieldOrder a c g))
    (frameBits_length _).le hempty hoff hturns

/-- Polarity and parity of the pointer agree (10 R36 (a)), from any state where they do. -/
theorem kept_carrierParity : Kept fun s => s.blk.carrier = .on ↔ s.blk.aptr % 2 = 1 where
  perform p s t hs h := by
    have append_parity : ∀ d, appendPrim d s = .done t →
        (t.blk.carrier = .on ↔ t.blk.aptr % 2 = 1) := by
      intro d hd
      obtain ⟨_, rfl⟩ := appendPrim_done hd
      simp only [flip_eq_on, hs]
      omega
    cases p with
    | bufrst => cases h; simp
    | append d => exact append_parity d h
    | encodeBit want =>
      rcases encodeBitPrim_cases want s with e | e
      · obtain ⟨_, _, _, rfl⟩ := addPrim_done (e.symm.trans h)
        exact hs
      · exact append_parity tHalf (e.symm.trans h)
    | send r v => cases h; exact hs
  tmr s hs := by
    have h := SameBuffer.tmrTurn s
    rwa [h.aptr, h.carrier]
  reset _ _ := by simp [Block.afterReset]
  env _ _ _ _ hs := hs

/-- States that agree outside the buffer and the environment differ in nothing else. -/
theorem eq_of_outsideBuffer (h : t.outsideBuffer = s.outsideBuffer) (hport : t.port = s.port) :
    t = { s with
      blk := { s.blk with arr := t.blk.arr, aptr := t.blk.aptr, carrier := t.blk.carrier }
      agenda := t.agenda, response := t.response } := by
  calc t = { t.outsideBuffer with
        blk := { t.outsideBuffer.blk with
          arr := t.blk.arr, aptr := t.blk.aptr, carrier := t.blk.carrier }
        port := t.port, agenda := t.agenda, response := t.response } := rfl
    _ = _ := by rw [h, hport]; rfl

end Sys2Proof.Machine

namespace Sys2Proof.Proofs

open Sys2Proof.Machine

/-- Settles O19: what is written are the entries of the frame, whose signal is the biphase coding. -/
theorem encodeWritesBiphaseSignal : Obligations.EncodeWritesBiphaseSignal := by
  intro s a c g hempty hoff hturns
  obtain ⟨t, ht, hok, hframe⟩ := exec_encode_of_empty a c g hempty hoff hturns
  obtain ⟨_, hwritten⟩ := hframe.of_empty hempty
  refine ⟨t, ht, hok, ?_⟩
  simp only [hwritten]
  refine ⟨halfBits_entriesAfter true _, mem_entriesAfter true _, ?_⟩
  rw [frameEntries, sum_entriesAfter, frameBits_length]
  rfl

/-- Settles O20: `aptr` counts the entries of the frame, one less for each merge; its parity is that of
`carrier`, which is the last bit sent; and the host alone writes the buffer only. -/
theorem encodeLengthAndFrame : Obligations.EncodeLengthAndFrame := by
  intro s a c g hempty hoff hturns
  obtain ⟨t, ht, hok, hframe⟩ := exec_encode_of_empty a c g hempty hoff hturns
  obtain ⟨haptr, hwritten⟩ := hframe.of_empty hempty
  have hcarrier : t.blk.carrier = .on ↔ c.getLsbD 0 = true := by
    rw [hframe.carrier, desired_eq_on]
  have hparity : t.blk.carrier = .on ↔ t.blk.aptr % 2 = 1 :=
    runComposite_keeps kept_carrierParity _ (by rw [hempty, hoff]; decide) ht
  refine ⟨t, ht, haptr.trans (frameEntries_length _), merges_le _, hparity.symm.trans hcarrier,
    hcarrier, hwritten, fun i hi => hframe.untouched i (.inr hi), fun hhost => ?_⟩
  have houtside : t.outsideBuffer = s.outsideBuffer :=
    runComposite_keepsUnder (keptUnder_outsideBuffer s) _ (encodePrimitives_noSend _) hhost rfl ht
  rw [← hok]
  exact eq_of_outsideBuffer houtside hframe.port

/-- Settles O22: the first bits of a frame leave `carrier` at the last of them. -/
theorem encodePolarityFollowsBits : Obligations.EncodePolarityFollowsBits := by
  intro s d k hk hempty hoff hturns
  have hbits : ((frameBits d).take k).length ≤ dataBits := by simp [hk]
  obtain ⟨t, ht, _, hframe⟩ := runComposite_start_bits _ hbits hempty hoff hturns
  refine ⟨t, ht, ?_⟩
  rw [hframe.carrier, desired_eq_on, getLast_take_frameBits d true hk]
  by_cases hzero : k = 0 <;> simp [hzero]

/-- Settles O23: `ADD` always finds a half bit to lengthen, so only an `APPEND` can fault. -/
theorem encodeFromAnyPointer : Obligations.EncodeFromAnyPointer := by
  intro s a c g hroom hturns
  obtain ⟨prev, hcarrier⟩ : ∃ prev, s.blk.carrier = desired (!prev) := by
    cases s.blk.carrier with
    | on => exact ⟨false, rfl⟩
    | off => exact ⟨true, rfl⟩
  rcases (appends_start_bits (frameBits (frameField s.cfg.fieldOrder a c g)) hroom hturns
    hcarrier).runComposite with ⟨t, ht, hok, hframe⟩ | ⟨_, t, ht, hover⟩
  · exact ⟨t, ht, fun i hi => hframe.untouched i (.inl hi), .inl hok⟩
  · exact ⟨t, ht, hover.untouched, .inr ⟨hover.response, hover.aptr⟩⟩

end Sys2Proof.Proofs

/-! ## The session a composite leaves that ends in `SEND` -/

namespace Sys2Proof.Machine

variable {s₀ s t : State} {c : OnOff} {es : List Entry}

theorem flip_eq_ite (p : OnOff) : p.flip = if p = .on then .off else .on := by cases p <;> rfl

/-- A sum that fits an entry is held by it exactly (41 R95). -/
theorem toNat_ofInt_entry {z : Int} (hpos : 0 ≤ z) (hfits : z ≤ entryMax) :
    ((BitVec.ofInt 16 z).toNat : Int) = z := by
  simp only [entryMax] at hfits
  rw [BitVec.toNat_ofInt]
  omega

/-- The state `BUFRST` leaves (41 R90). -/
def emptied (s : State) : State := { s with blk := { s.blk with aptr := 0, carrier := .off } }

theorem perform_bufrst (s : State) : perform .bufrst s = .done (emptied s) := rfl

/-- What the buffer reads as after step 4 of `SEND`, by where it pads (42 R103). -/
theorem read_paddedBuffer (pad : Entry) (v : Bool) (x : Nat) (m : Memory) (i : Nat) :
    let pads := v = true ∧ x % 2 = 1
    (pads ∧ i = x → (paddedBuffer pad v x m).read i = pad) ∧
      (pads ∧ i = x + 1 → (paddedBuffer pad v x m).read i = STOP) ∧
      (¬ (pads ∧ (i = x ∨ i = x + 1)) → (paddedBuffer pad v x m).read i = m.read i) := by
  intro pads
  by_cases hpads : pads
  · rw [read_paddedBuffer_of_pads (padsAt_eq_true.mpr hpads)]
    refine ⟨fun ⟨_, hi⟩ => ?_, fun ⟨_, hi⟩ => if_pos hi, fun hi => ?_⟩
    · rw [if_neg (by omega), if_pos hi]
    · obtain ⟨hne, hne'⟩ := not_or.mp fun h => hi ⟨hpads, h⟩
      rw [if_neg hne', if_neg hne]
  · refine ⟨fun ⟨h, _⟩ => absurd h hpads, fun ⟨h, _⟩ => absurd h hpads, fun _ => ?_⟩
    rw [paddedBuffer, if_neg (mt padsAt_eq_true.mp hpads)]

/-- The values `SEND` queues are the first entries (42 R104). -/
theorem preload_eq (m : Memory) (n : Nat) :
    preload m n = (entriesFrom m 0 n).map fun e => e.setWidth 32 := by
  rw [entriesFrom, List.map_map]
  exact List.map_congr_left fun k _ => by rw [Function.comp_apply, Nat.zero_add, widen]

/-- The session `SEND` sets up, with the last slot's STOP in the buffer it finds (42 R100 to R104). -/
theorem afterSend_session (r : BitVec 16) (v : Bool) (s : State) :
    sessionOf s.cfg.padSpaceUs v (fun i => if i = CAP - 1 then STOP else s.blk.arr.read i)
      (firstStop (forceLastStop s.blk.arr)) (afterSend r v s).blk := by
  have hlast : (forceLastStop s.blk.arr).read (CAP - 1) = STOP := by simp [read_forceLastStop]
  obtain ⟨hx, hstop, hlive⟩ := firstStop_spec _ hlast
  simp only [← read_forceLastStop]
  refine ⟨hx, hstop, hlive, fun hpads => ?_, fun hpads => ?_, fun i => ?_, ?_,
    rfl, rfl, rfl, rfl, rfl, rfl, rfl⟩
  · exact if_pos (padsAt_eq_true.mpr hpads)
  · exact if_neg (mt padsAt_eq_true.mp hpads)
  · exact read_paddedBuffer s.cfg.padSpaceUs v _ (forceLastStop s.blk.arr) i
  · exact preload_eq _ _

/-- A composite that appends what fits and ends in a `SEND`. -/
theorem Appends.completes_send {ps : List Primitive} (h : Appends s₀ s c es ps)
    (hfits : s₀.blk.aptr + es.length ≤ CAP) (r : BitVec 16) (v : Bool) :
    ∃ t, Machine.runComposite (ps ++ [.send r v]) s = .next (afterSend r v t) ∧
      Appended s₀ c es t :=
  (h [.send r v]).resolve_right fun ⟨hfull, _⟩ => absurd hfull (Nat.not_lt.mpr hfits)

/-- `TRIGGER` with room for its STOP, whatever TMR does meanwhile (41 R93). -/
theorem exec_trigger (hroom : s.blk.aptr < CAP) (hturns : noReset s.agenda) :
    ∃ t, exec .trigger s = .next (afterSend 1#16 true t) ∧
      Appended s s.blk.carrier.flip [STOP] t :=
  ((Appended.start hroom.le hturns).appends_append (p := .append STOP) rfl).completes_send
    hroom 1#16 true

/-- `TRIGGER` at a full buffer (41 R91, R93). -/
theorem exec_trigger_of_full (hfull : CAP ≤ s.blk.aptr) :
    exec .trigger s = .next (s.takeHostFault (.bufferOverflow s.blk.aptr)) := by
  rcases appendPrim_cases STOP s with ⟨_, e⟩ | ⟨hfits, _⟩
  · exact runComposite_of_raises (p := .append STOP) [.send 1#16 true] e
  · omega

/-- What the buffer reads as after one entry was appended. -/
theorem Appended.read_single {e : Entry} (h : Appended s₀ c [e] s) (i : Nat) :
    s.blk.arr.read i = if i = s₀.blk.aptr then e else s₀.blk.arr.read i := by
  have haptr := h.aptr
  have hlast := Appended.last (es := []) h
  rw [List.length_singleton] at haptr
  rw [haptr, Nat.add_sub_cancel] at hlast
  by_cases hi : i = s₀.blk.aptr
  · rw [if_pos hi, hi, hlast]
  · rw [if_neg hi]
    exact h.untouched i (by omega)

/-! ### `TRANSMIT` -/

/-- The number of entries is odd exactly when the last bit repeats the polarity before the first
(40 R86, 10 R36 (a)). -/
theorem getLast_eq_iff_entriesAfter_odd (prev : Bool) (bits : List Bool) :
    bits.getLast?.getD prev = prev ↔ (entriesAfter prev tHalf bits).length % 2 = 1 := by
  induction bits generalizing prev with
  | nil => simp [entriesAfter]
  | cons bit rest ih =>
    have hrest := ih bit
    rw [getLast_cons, entriesAfter_cons, List.length_append]
    by_cases hbit : bit = prev
    · subst hbit
      rw [hrest, completedBy, if_pos rfl, List.length_cons, List.length_singleton]
      omega
    · obtain rfl : prev = !bit := Bool.eq_not.mpr (Ne.symm hbit)
      have hlast : rest.getLast?.getD bit = !bit ↔ ¬ rest.getLast?.getD bit = bit := Bool.eq_not
      rw [hlast, hrest, completedBy, if_neg hbit, List.length_singleton]
      omega

/-- From any state `BUFRST` and the encoder append the entries of the frame to the emptied buffer. -/
theorem appends_frame (d : BitVec 13) (hturns : noReset s.agenda) :
    Appends (emptied s) s (desired ((frameBits d).getLast?.getD true)) (frameEntries d)
      (.bufrst :: encodePrimitives d) := by
  have hempty : Appends (emptied s) s .off [] [.bufrst] :=
    .of_done (perform_bufrst s) (Appended.start (Nat.zero_le _) hturns)
  refine hempty.trans (Nat.zero_le _) fun t ht => ?_
  have hstart := ht.appends_append (p := .append tHalf) rfl
  exact hstart.trans (entriesAfter_length_pos true tHalf (frameBits d)) fun u hu =>
    hu.appends_bits (prev := true) (frameBits d)

/-- `TRANSMIT` under any turns of TMR: the frame and a STOP are appended to the emptied buffer, the
polarity fits their number, and `SEND 1, 1` runs on that (41 R94). -/
theorem runComposite_transmit (d : BitVec 13) (hturns : noReset s.agenda) :
    ∃ t p, runComposite (transmitPrimitives d) s = .next (afterSend 1#16 true t) ∧
      Appended (emptied s) p (frameEntries d ++ [STOP]) t ∧
      (p = .on ↔ (frameEntries d).length % 2 = 0) := by
  have hlen := frameEntries_length d
  have hstop := (appends_frame d hturns).trans (by simp) fun t ht =>
    ht.appends_append (p := .append STOP) rfl
  obtain ⟨t, ht, hwritten⟩ := hstop.completes_send
    (by simp only [emptied, List.length_append, List.length_singleton, CAP]; omega) 1#16 true
  refine ⟨t, _, ?_, hwritten, ?_⟩
  · rw [← ht, List.append_assoc]
    rfl
  · rw [flip_eq_on, desired_eq_on, getLast_eq_iff_entriesAfter_odd]
    exact Nat.mod_two_not_eq_one

/-- Entries up to a STOP and the padding space when their number is odd (42 R103). -/
def withPadding (pad : Entry) (es : List Entry) : List Entry :=
  if es.length % 2 = 1 then es ++ [pad] else es

theorem playedEntries_eq (pad : Entry) (d : BitVec 13) :
    playedEntries pad d = withPadding pad (frameEntries d) := rfl

theorem withPadding_length_ge (pad : Entry) (es : List Entry) :
    es.length ≤ (withPadding pad es).length := by
  simp only [withPadding]
  split <;> simp

theorem entriesFrom_zero_eq_iff (m : Memory) (l : List Entry) :
    entriesFrom m 0 l.length = l ↔ ∀ i (h : i < l.length), m.read i = l[i] := by
  simp [entriesFrom, List.ext_getElem_iff]

theorem entriesFrom_min (m : Memory) (n k : Nat) :
    entriesFrom m 0 (min n k) = (entriesFrom m 0 n).take k := by
  simp [entriesFrom, ← List.map_take, List.take_range, Nat.min_comm]

/-- The first STOP of a buffer is the only index with no STOP below it. -/
theorem eq_of_firstStop {base : Nat → Entry} {x y : Nat} (hx : base x = STOP) (hy : base y = STOP)
    (hx' : ∀ j < x, base j ≠ STOP) (hy' : ∀ j < y, base j ≠ STOP) : x = y :=
  Nat.le_antisymm (Nat.le_of_not_lt fun h => hx' y h hy) (Nat.le_of_not_lt fun h => hy' x h hx)

/-- The block is set up to play `played`, a STOP behind them and then what `base` reads as
(42 R103, R104). -/
structure Plays (played : List Entry) (base : Nat → Entry) (b : Block) : Prop where
  icm : b.icm = played.length
  entries : entriesFrom b.arr 0 played.length = played
  behind : ∀ i, played.length ≤ i → b.arr.read i = if i = played.length then STOP else base i
  fifo : b.fifo = (played.take preloadMax).map fun e => e.setWidth 32
  apt : b.apt = min played.length preloadMax

/-- A session with validation over live entries and a STOP plays the entries and the padding. -/
theorem sessionOf.plays {pad : Entry} {base : Nat → Entry} {x : Nat} {b : Block}
    (h : sessionOf pad true base x b) (hlive : ∀ i (hi : i < es.length), base i = es[i])
    (hes : ∀ e ∈ es, e ≠ STOP) (hend : base es.length = STOP) :
    Plays (withPadding pad es) base b := by
  obtain ⟨_, hstop, hfirst, hpads, hnopads, hread, hfifo, hapt, _⟩ := h
  obtain rfl : x = es.length := eq_of_firstStop hstop hend hfirst fun j hj =>
    hlive j hj ▸ hes _ (List.getElem_mem hj)
  have hbelow : entriesFrom b.arr 0 es.length = es := (entriesFrom_zero_eq_iff _ _).mpr fun i hi => by
    obtain ⟨_, _, hsame⟩ := hread i
    rw [hsame (by omega), hlive i hi]
  suffices hplayed : b.icm = (withPadding pad es).length ∧
      entriesFrom b.arr 0 (withPadding pad es).length = withPadding pad es ∧
      ∀ i, (withPadding pad es).length ≤ i →
        b.arr.read i = if i = (withPadding pad es).length then STOP else base i by
    obtain ⟨hicm, hentries, hbehind⟩ := hplayed
    refine ⟨hicm, hentries, hbehind, ?_, hicm ▸ hapt⟩
    rw [hfifo, entriesFrom_min, hicm, hentries]
  by_cases hodd : es.length % 2 = 1
  · have hpadded : withPadding pad es = es ++ [pad] := if_pos hodd
    obtain ⟨hpad, _⟩ := hread es.length
    rw [hpadded, List.length_append, List.length_singleton]
    refine ⟨hpads ⟨rfl, hodd⟩, ?_, fun i hi => ?_⟩
    · rw [entriesFrom_succ, hbelow, Nat.zero_add, hpad ⟨⟨rfl, hodd⟩, rfl⟩]
    · obtain ⟨_, hafter, hsame⟩ := hread i
      by_cases hi' : i = es.length + 1
      · rw [if_pos hi', hafter ⟨⟨rfl, hodd⟩, hi'⟩]
      · rw [if_neg hi', hsame (by omega)]
  · have hpadded : withPadding pad es = es := if_neg hodd
    rw [hpadded]
    refine ⟨hnopads fun ⟨_, h⟩ => hodd h, hbelow, fun i _ => ?_⟩
    obtain ⟨_, _, hsame⟩ := hread i
    rw [hsame fun ⟨⟨_, h⟩, _⟩ => hodd h]
    by_cases hi' : i = es.length
    · rw [if_pos hi', hi', hend]
    · rw [if_neg hi']

/-- What the buffer reads as after entries were appended from its beginning. -/
theorem Appended.read_of_empty {e : Entry} (h : Appended s₀ c (es ++ [e]) s)
    (hempty : s₀.blk.aptr = 0) :
    (∀ i (hi : i < es.length), s.blk.arr.read i = es[i]) ∧ s.blk.arr.read es.length = e ∧
      ∀ i, es.length < i → s.blk.arr.read i = s₀.blk.arr.read i := by
  obtain ⟨haptr, hwritten⟩ := h.of_empty hempty
  rw [List.length_append, List.length_singleton] at haptr
  rw [haptr, entriesFrom_succ, Nat.zero_add] at hwritten
  exact ⟨(entriesFrom_zero_eq_iff _ _).mp (List.append_inj_left' hwritten rfl),
    List.singleton_inj.mp (List.append_inj_right' hwritten rfl),
    fun i hi => h.untouched i (.inr (haptr ▸ hi))⟩

/-- `SEND` over live entries and a STOP, appended from the beginning of the buffer (42 R102 to R104). -/
theorem Appended.plays (h : Appended s₀ c (es ++ [STOP]) t) (hempty : s₀.blk.aptr = 0)
    (hfits : es.length < CAP) (hes : ∀ e ∈ es, e ≠ STOP) (r : BitVec 16) :
    Plays (withPadding s₀.cfg.padSpaceUs es)
      (fun i => if i = CAP - 1 then STOP else s₀.blk.arr.read i) (afterSend r true t).blk := by
  obtain ⟨hlive, hend, huntouched⟩ := h.read_of_empty hempty
  have hsession := afterSend_session r true t
  rw [h.cfg] at hsession
  have hplays := hsession.plays (es := es)
    (fun i hi => by rw [if_neg (by omega), hlive i hi]) hes (by rw [hend, ite_self])
  refine { hplays with behind := fun i hi => (hplays.behind i hi).trans ?_ }
  have hge := withPadding_length_ge s₀.cfg.padSpaceUs es
  by_cases hstop : i = (withPadding s₀.cfg.padSpaceUs es).length
  · rw [if_pos hstop, if_pos hstop]
  · rw [if_neg hstop, if_neg hstop, huntouched i (by omega)]

theorem frameEntries_ne_stop (d : BitVec 13) : ∀ e ∈ frameEntries d, e ≠ STOP := by
  intro e he
  rcases mem_entriesAfter true (frameBits d) e he with rfl | rfl <;> decide

/-- A frame fills the queue (42 R104). -/
theorem preloadMax_le_playedEntries (pad : Entry) (d : BitVec 13) :
    preloadMax ≤ (playedEntries pad d).length := by
  have hlen := frameEntries_length d
  have hmerges := merges_le d
  have hge := withPadding_length_ge pad (frameEntries d)
  rw [playedEntries_eq]
  simp only [preloadMax]
  omega

/-- `TRANSMIT` plays the frame from the emptied buffer (41 R94). -/
theorem transmit_plays {d : BitVec 13}
    (h : Appended (emptied s) c (frameEntries d ++ [STOP]) t) :
    Plays (playedEntries s.cfg.padSpaceUs d)
      (fun i => if i = CAP - 1 then STOP else s.blk.arr.read i) (afterSend 1#16 true t).blk := by
  have hfits : (frameEntries d).length < CAP := by
    rw [frameEntries_length]
    simp only [CAP]
    omega
  exact h.plays rfl hfits (frameEntries_ne_stop d) 1#16

end Sys2Proof.Machine

/-! ## The buffer commands, `TRIGGER` and `TRANSMIT` -/

namespace Sys2Proof.Proofs

open Sys2Proof.Machine

/-- Settles O15: the primitive has the one effect. -/
theorem bufrstResult : Obligations.BufrstResult :=
  fun s => congrArg (finish s) (perform_bufrst s)

/-- Settles O16, by the two ways `APPEND` ends. -/
theorem appendResult : Obligations.AppendResult := by
  intro s d
  rcases appendPrim_cases d s with ⟨hfull, e⟩ | ⟨hfits, e⟩
  · exact ⟨fun hroom => absurd hroom (Nat.not_lt.mpr hfull), fun _ => congrArg (finish s) e⟩
  · refine ⟨fun _ => ⟨_, congrArg (finish s) e, fun i => Memory.read_write _ _ i d, ?_⟩,
      fun hfull => absurd hfits (Nat.not_lt.mpr hfull)⟩
    rw [← flip_eq_ite]
    rfl

/-- Settles O17, by the ways `ADD` ends with the pointer in range. -/
theorem addResult : Obligations.AddResult := by
  intro s x hcap sum
  rcases addPrim_cases x s with ⟨hneg, e⟩ | ⟨hpos, hzero, e⟩ | ⟨_, hout, _⟩ |
    ⟨hpos, hentry, _, hover, e⟩ | ⟨hpos, hentry, _, hfits, e⟩
  case inl =>
    exact ⟨fun _ => congrArg (finish s) e, fun _ => by omega, fun _ => by omega, fun _ => by omega⟩
  case inr.inl =>
    exact ⟨fun _ => by omega, fun _ _ => congrArg (finish s) e, fun _ _ => by omega,
      fun _ _ => by omega⟩
  case inr.inr.inl => omega
  case inr.inr.inr.inl =>
    exact ⟨fun _ => by omega, fun _ _ => by omega, fun _ _ _ => congrArg (finish s) e,
      fun _ _ hfits => absurd hover (Int.not_lt.mpr hfits)⟩
  case inr.inr.inr.inr =>
    refine ⟨fun _ => by omega, fun _ _ => by omega,
      fun _ _ hover => absurd hover (Int.not_lt.mpr hfits),
      fun _ _ _ => ⟨_, congrArg (finish s) e, ?_, fun i hi => Memory.read_write_other _ _ hi, rfl⟩⟩
    have hsum : 0 ≤ sum := by omega
    exact (congrArg (fun e : Entry => (e.toNat : Int)) (Memory.read_write_same _ _ _)).trans
      (toNat_ofInt_entry hsum hfits)

/-- Settles O18: after the STOP the buffer `SEND` finds has it at the pointer and in the last slot. -/
theorem triggerResult : Obligations.TriggerResult := by
  intro s
  refine ⟨fun hroom hturns => ?_, exec_trigger_of_full⟩
  obtain ⟨t, ht, hstop⟩ := exec_trigger hroom hturns
  have hsession := afterSend_session 1#16 true t
  have hbase : (fun i => if i = CAP - 1 then STOP else t.blk.arr.read i) =
      fun i => if i = s.blk.aptr ∨ i = CAP - 1 then STOP else s.blk.arr.read i := by
    funext i
    simp only [hstop.read_single i, ← ite_or, or_comm]
  rw [hbase, hstop.cfg] at hsession
  refine ⟨_, _, ht, rfl, hstop.aptr, hstop.carrier, rfl, hsession, fun hhost => ?_⟩
  obtain ⟨hlevel, hfault, _⟩ := hostWritesOnlyItsElements .trigger s _ hhost ht
  exact ⟨hlevel, hfault⟩

/-- Settles O25: `SEND` runs over the frame and a STOP, appended to the emptied buffer. -/
theorem transmitSession : Obligations.TransmitSession := by
  intro s a c g hturns
  obtain ⟨t, p, ht, hframe, hparity⟩ :=
    runComposite_transmit (frameField s.cfg.fieldOrder a c g) hturns
  have hexec : exec (.transmit a c g) s = .next (afterSend 1#16 true t) := ht
  have hplays := transmit_plays hframe
  refine ⟨_, hexec, rfl, ?aptr, hframe.carrier ▸ hparity, rfl, hplays.icm, rfl, ?apt, rfl, rfl,
    hplays.fifo, rfl, rfl, rfl, hplays.entries, fun i hi => ?behind, fun hhost => ?host⟩
  case aptr => exact hframe.aptr.trans (by simp [emptied])
  case apt => exact hplays.apt.trans (Nat.min_eq_right (preloadMax_le_playedEntries _ _))
  case behind => rw [hplays.behind i hi, ite_or]
  case host =>
    obtain ⟨hlevel, hfault, _⟩ := hostWritesOnlyItsElements _ s _ hhost hexec
    exact ⟨hlevel, hfault⟩

end Sys2Proof.Proofs

/-! ## `SEND`, `BUSY` and `CANCEL` -/

namespace Sys2Proof.Machine

/-- Only the last segment is marked (43 R125). -/
theorem truncateLast_append (before : List Segment) (g : Segment) :
    truncateLast (before ++ [g]) = before ++ [{ g with truncated := true }] := by
  induction before with
  | nil => rfl
  | cons g' rest ih =>
    obtain ⟨g'', rest', hrest⟩ := List.exists_cons_of_ne_nil (l := rest ++ [g]) (by simp)
    rw [List.cons_append, List.cons_append, ← ih, hrest]
    rfl

/-- `SEND` marks the value it interrupts (42 R100, 43 R125). -/
theorem afterSend_trace (r : BitVec 16) (v : Bool) (s : State) :
    (afterSend r v s).trace = if s.blk.running then truncateLast s.trace else s.trace := rfl

/-- `SEND` preloads as many values as `apt` then says (42 R104). -/
theorem afterSend_fifo_length (r : BitVec 16) (v : Bool) (s : State) :
    (afterSend r v s).blk.fifo.length = (afterSend r v s).blk.apt :=
  preload_length _ _

/-- `BUSY` as a single condition (42 R108). -/
theorem busyValue_eq (b : Block) : busyValue b = decide (b.started = true ∧ b.ict < b.icm) := by
  simp only [busyValue, Bool.decide_and, Bool.decide_eq_true]

end Sys2Proof.Machine

namespace Sys2Proof.Proofs

open Sys2Proof.Machine

/-- Settles O29: the session is `afterSend_session`'s, and the interrupted value is marked. -/
theorem sendSession : Obligations.SendSession := by
  intro s r v
  refine ⟨_, _, exec_send r v s, rfl, afterSend_session r v s, rfl, rfl, rfl, rfl, rfl, rfl, rfl,
    rfl, fun hidle => ?_, fun hheld before g htrace => ?_⟩
  · rw [afterSend_trace, hidle, if_neg Bool.false_ne_true]
  · rw [afterSend_trace, hheld, if_pos rfl, htrace, truncateLast_append]

/-- Settles O31. -/
theorem busyResult : Obligations.BusyResult :=
  fun s => congrArg (fun value => Host.Outcome.next (s.respond ⟨.ok, value⟩)) (busyValue_eq s.blk)

/-- Settles O32: the primitive has the one effect. -/
theorem cancelResult : Obligations.CancelResult := fun _ => rfl

end Sys2Proof.Proofs

/-! ## The branches of `FEED` -/

namespace Sys2Proof.Machine

section Feed

variable {cfg : Cfg} {b : Block}

/-- A fetch beyond the buffer (60 R137). -/
theorem feed_beyond (hapt : CAP ≤ b.apt) : feed cfg b = raiseFeedFault (feedCounted b) := by
  simp [feed, feedRefill, memRead, Nat.not_lt.mpr hapt]

/-- Data, with room in the queue (42 R105). -/
theorem feed_at_data (hapt : b.apt < CAP) (he : b.arr.read b.apt ≠ STOP)
    (hroom : b.fifo.length < cfg.fifoDepth) :
    feed cfg b = { feedCounted b with
      fifo := b.fifo ++ [widen (b.arr.read b.apt)], apt := b.apt + 1 } := by
  simp [feed, feedRefill, feedData, fifoPush, memRead, hapt, he, hroom]

/-- Data, the queue full (60 R137). -/
theorem feed_at_data_full (hapt : b.apt < CAP) (he : b.arr.read b.apt ≠ STOP)
    (hfull : ¬ b.fifo.length < cfg.fifoDepth) :
    feed cfg b = raiseFeedFault (feedCounted b) := by
  simp [feed, feedRefill, feedData, fifoPush, memRead, hapt, he, hfull]

/-- A repeat, the queue full: the repeat is counted all the same (42 R107, 60 R137). -/
theorem feed_at_stop_full (hapt : b.apt < CAP) (hstop : b.arr.read b.apt = STOP)
    (hreps : b.reps ≠ 1#16) (hfull : ¬ b.fifo.length < cfg.fifoDepth) :
    feed cfg b = raiseFeedFault { feedCounted b with reps := repsAfterRepeat b } := by
  simp [feed, feedRefill, feedRepeat, fifoPush, memRead, hapt, hstop, hreps, hfull]

/-- The infinite 0 stays, any other count goes down by one (42 R107). -/
theorem repsAfterRepeat_eq (b : Block) :
    repsAfterRepeat b = if b.reps = 0#16 then 0#16 else b.reps - 1#16 :=
  ite_congr rfl id fun _ => rfl

end Feed

theorem flip_eq_Y (p : Phase) : p.flip = .Y ↔ p = .X := by cases p <;> decide

theorem levelOfCount_eq_on (n : Nat) : levelOfCount n = .on ↔ n % 2 = 0 := by
  simp [levelOfCount]

/-- TMR's turn laid down in the agenda (60 R143). -/
theorem step_of_tmr {s : State} {turns : List Turn} (h : s.agenda = .tmr :: turns) :
    step s = .next (tmrTurn { s with agenda := turns }) := by
  simp only [step, nextTurn, h]

end Sys2Proof.Machine

namespace Sys2Proof.Proofs

open Sys2Proof.Machine

/-- Settles O34: the frame is `feed_frame`'s, and each branch is the equation of that branch of
`FEED` on the block that holds the head. -/
theorem dequeueRunsFeed : Obligations.DequeueRunsFeed := by
  intro s turns w q hagenda hactive hrunning hfault hq
  have hturn := tmrTurn_of_queued (s := { s with agenda := turns }) hactive hrunning hfault hq
  have hstep : step s = _ := (step_of_tmr hagenda).trans (congrArg Host.Outcome.next hturn)
  refine ⟨_, hstep, ?_⟩
  simp only [feed_frame, holdNext_cur, holdNext_running, holdNext_pin, holdNext_phase, holdNext_ict,
    holdNext_arr, holdNext_aptr, holdNext_carrier, holdNext_icm, holdNext_started, holdNext_active,
    hactive, pinOfPhase_iff_flip, flip_eq_Y, levelOfCount_eq_on, segmentOf, true_and]
  refine ⟨fun hbeyond => ?beyond, fun hapt he hroom => ?data, fun hapt he hfull => ?dataFull,
    fun hapt hstop hone => ?last, fun hapt hstop hmore hroom => ?repeats,
    fun hapt hstop hmore hfull => ?repeatFull⟩
  case beyond =>
    rw [feed_beyond (b := holdNext w q s.blk) hbeyond]
    exact ⟨rfl, rfl, rfl, rfl, rfl⟩
  case data =>
    rw [feed_at_data (b := holdNext w q s.blk) hapt he hroom]
    exact ⟨hfault, rfl, rfl, rfl, rfl⟩
  case dataFull =>
    rw [feed_at_data_full (b := holdNext w q s.blk) hapt he hfull]
    exact ⟨rfl, rfl, rfl, rfl, rfl⟩
  case last =>
    rw [feed_at_stop_last (b := holdNext w q s.blk) hapt hstop hone]
    exact ⟨hfault, rfl, rfl, rfl, rfl⟩
  case repeats =>
    rw [feed_at_stop_repeat (b := holdNext w q s.blk) hapt hstop hmore hroom]
    exact ⟨hfault, rfl, rfl, repsAfterRepeat_eq _, rfl⟩
  case repeatFull =>
    rw [feed_at_stop_full (b := holdNext w q s.blk) hapt hstop hmore hfull]
    exact ⟨rfl, rfl, rfl, repsAfterRepeat_eq _, rfl⟩

end Sys2Proof.Proofs

/-! ## The states of the driver -/

namespace Sys2Proof.Machine

theorem dequeueEnabled_iff (b : Block) : dequeueEnabled b = true ↔
    b.active = true ∧ b.running = false ∧ b.fifo ≠ [] ∧ b.feedFault = false := by
  simp [dequeueEnabled, and_assoc]

theorem isIdle_iff (b : Block) :
    isIdle b = true ↔ b.active = false ∨ (b.running = false ∧ b.fifo = []) := by
  simp [isIdle]

theorem isPriming_iff (b : Block) : isPriming b = true ↔
    b.active = true ∧ b.running = false ∧ b.fifo ≠ [] ∧ b.ict = 0 := by
  simp [isPriming, and_assoc]

theorem isStreaming_iff (b : Block) : isStreaming b = true ↔
    b.active = true ∧ (b.running = true ∨ b.fifo ≠ []) ∧ b.ict ≠ 0 := by
  simp [isStreaming, and_assoc]

theorem hasRepeated_eq_true (b : Block) :
    hasRepeated b = true ↔ b.ict + b.fifo.length ≠ b.apt := by
  simp [hasRepeated]

theorem hasRepeated_eq_false (b : Block) :
    hasRepeated b = false ↔ b.ict + b.fifo.length = b.apt := by
  simp [hasRepeated]

theorem takesRepeat_iff (b : Block) : takesRepeat b = true ↔
    dequeueEnabled b = true ∧ b.apt < CAP ∧ b.arr.read b.apt = STOP ∧ b.reps ≠ 1#16 := by
  simp [takesRepeat, and_assoc]

/-- A dequeue counts and holds a value (43 R121, 42 R105). -/
theorem tmrTurn_isStreaming {s : State} (h : dequeueEnabled s.blk = true) :
    isStreaming (tmrTurn s).blk = true := by
  obtain ⟨hactive, hrunning, hsome, hfault⟩ := (dequeueEnabled_iff _).mp h
  obtain ⟨w, q, hq⟩ := List.exists_cons_of_ne_nil hsome
  rw [tmrTurn_of_queued hactive hrunning hfault hq, isStreaming_iff]
  refine ⟨by simpa [feed_frame] using hactive, .inl (by simp [feed_frame]), ?_⟩
  rcases feed_queue s.cfg (holdNext w q s.blk) with ⟨hict, _⟩ | ⟨hict, _⟩ | ⟨hict, _⟩ <;>
    simp [hict]

/-- The dequeue whose `FEED` takes the repeat branch, the queue within its depth (42 R107). -/
theorem tmrTurn_of_takesRepeat {s : State} (h : takesRepeat s.blk = true)
    (hdepth : s.blk.fifo.length ≤ s.cfg.fifoDepth) :
    (tmrTurn s).blk.apt = 1 ∧ (tmrTurn s).blk.ict = 1 ∧ hasRepeated (tmrTurn s).blk = true := by
  obtain ⟨henabled, hapt, hstop, hmore⟩ := (takesRepeat_iff _).mp h
  obtain ⟨hactive, hrunning, hsome, hfault⟩ := (dequeueEnabled_iff _).mp henabled
  obtain ⟨w, q, hq⟩ := List.exists_cons_of_ne_nil hsome
  have hroom : q.length < s.cfg.fifoDepth := by simpa [hq] using hdepth
  rw [hasRepeated_eq_true,
    tmrTurn_blk_of_repeat_stop hactive hrunning hfault hq hapt hstop hmore hroom]
  exact ⟨rfl, rfl, by simp⟩

/-- A dequeue whose `FEED` does not take the repeat branch counts what it takes and queues what it
fetches (42 R105). -/
theorem hasRepeated_tmrTurn_of_not_takesRepeat {s : State} (h : takesRepeat s.blk = false) :
    hasRepeated (tmrTurn s).blk = hasRepeated s.blk := by
  rcases tmrTurn_cases s with ⟨w, q, ha, hr, hf, hq, e⟩ | ⟨_, _, _, e⟩ | ⟨_, _, e⟩ <;> rw [e]
  case inr.inl => rfl
  case inl =>
    have henabled : dequeueEnabled s.blk = true :=
      (dequeueEnabled_iff _).mpr ⟨ha, hr, by simp [hq], hf⟩
    have hnone : ¬ (s.blk.apt < CAP ∧ s.blk.arr.read s.blk.apt = STOP ∧ s.blk.reps ≠ 1#16) :=
      fun hbranch => by simp [(takesRepeat_iff _).mpr ⟨henabled, hbranch⟩] at h
    rcases feed_cases s.cfg (holdNext w q s.blk) with ⟨_, e⟩ | ⟨_, _, _, e⟩ | ⟨_, _, _, e⟩ |
      ⟨_, _, _, e⟩ | ⟨hapt, hstop, hmore, _⟩ | ⟨hapt, hstop, hmore, _⟩
    case inr.inr.inr.inr.inl => exact absurd ⟨hapt, hstop, hmore⟩ hnone
    case inr.inr.inr.inr.inr => exact absurd ⟨hapt, hstop, hmore⟩ hnone
    all_goals
      rw [e, Bool.eq_iff_iff, hasRepeated_eq_true, hasRepeated_eq_true]
      simp only [hq, raiseFeedFault_ict, raiseFeedFault_fifo, raiseFeedFault_apt, holdNext_ict,
        holdNext_fifo, holdNext_apt, List.length_append, List.length_cons, List.length_nil]
      omega

end Sys2Proof.Machine

namespace Sys2Proof.Proofs

open Sys2Proof.Machine

/-- Settles O47. -/
theorem driverStateMachine : Obligations.DriverStateMachine := by
  refine ⟨rfl, ?send, fun s => tmrTurn_isStreaming, fun s hrepeat hdepth => ?repeating,
    fun b _ hrunning hempty => (isIdle_iff b).mpr (.inr ⟨hrunning, hempty⟩), fun s hs => ?cover,
    fun b => ?sub, fun b => ?exclusive⟩
  case send =>
    intro s t r v ht
    rw [exec_send] at ht
    cases ht
    have hqueued := afterSend_fifo_length r v s
    have hapt : (afterSend r v s).blk.apt = min (afterSend r v s).blk.icm preloadMax := rfl
    refine ⟨fun hempty => (isIdle_iff _).mpr (.inr ⟨rfl, ?_⟩),
      fun hpos => (isPriming_iff _).mpr ⟨rfl, rfl, ?_, rfl⟩⟩
    · exact List.eq_nil_of_length_eq_zero (hqueued.trans (by rw [hapt, hempty, Nat.zero_min]))
    · refine List.ne_nil_of_length_pos ?_
      rw [hqueued, hapt]
      exact Nat.lt_min.mpr ⟨hpos, by decide⟩
  case repeating =>
    obtain ⟨hapt, hict, hrepeated⟩ := tmrTurn_of_takesRepeat hrepeat hdepth
    obtain ⟨henabled, _⟩ := (takesRepeat_iff _).mp hrepeat
    have hstreaming := tmrTurn_isStreaming henabled
    exact ⟨hapt, hict, hstreaming, by rw [isRepeating, hstreaming, hrepeated, Bool.and_self]⟩
  case cover =>
    rw [isIdle_iff, isPriming_iff, isStreaming_iff]
    cases hactive : s.blk.active with
    | false => exact .inl (.inl rfl)
    | true =>
      by_cases hidle : s.blk.running = false ∧ s.blk.fifo = []
      · exact .inl (.inr hidle)
      have hbusy : s.blk.running = true ∨ s.blk.fifo ≠ [] :=
        (not_and_or.mp hidle).imp_left Bool.eq_true_of_not_eq_false
      by_cases hcount : s.blk.ict = 0
      · have hrunning : s.blk.running = false :=
          Bool.eq_false_of_not_eq_true fun h => hs.heldCounted h hcount
        exact .inr (.inl ⟨rfl, hrunning, fun hempty => hidle ⟨hrunning, hempty⟩, hcount⟩)
      · exact .inr (.inr ⟨rfl, hbusy, hcount⟩)
  case sub =>
    intro h
    exact Bool.and_elim_left h
  case exclusive =>
    rw [isIdle_iff, isPriming_iff, isStreaming_iff]
    refine ⟨?_, ?_, fun ⟨⟨_, _, _, hfresh⟩, _, _, hcounted⟩ => hcounted hfresh⟩
    · rintro ⟨hinactive | ⟨_, hempty⟩, hactive, _, hsome, _⟩
      · exact Bool.false_ne_true (hinactive.symm.trans hactive)
      · exact hsome hempty
    · rintro ⟨hinactive | ⟨hrunning, hempty⟩, hactive, hbusy, _⟩
      · exact Bool.false_ne_true (hinactive.symm.trans hactive)
      · exact hbusy.elim (fun h => Bool.false_ne_true (hrunning.symm.trans h)) (· hempty)

/-- Settles O51. -/
theorem repeatingFollowsTheRepeatBranch : Obligations.RepeatingFollowsTheRepeatBranch := by
  refine ⟨rfl, ?send, fun s hdepth => ?tmr, fun i s t hi hhost ht => ?host, fun s t ht => ?cancel⟩
  case send =>
    intro s t r v ht
    rw [exec_send] at ht
    cases ht
    rw [hasRepeated_eq_false, afterSend_fifo_length]
    exact Nat.zero_add _
  case tmr =>
    cases hrepeat : takesRepeat s.blk with
    | true =>
      obtain ⟨_, _, hrepeated⟩ := tmrTurn_of_takesRepeat hrepeat hdepth
      rw [hrepeated, Bool.true_or]
    | false => rw [hasRepeated_tmrTurn_of_not_takesRepeat hrepeat, Bool.false_or]
  case host =>
    obtain ⟨_, _, hsession, _⟩ := hostWritesOnlyItsElements i s t hhost ht
    obtain ⟨_, hict, hapt, _, _, hfifo, _⟩ := hsession hi
    simp only [hasRepeated, hict, hapt, hfifo]
  case cancel =>
    cases ht
    refine Bool.eq_false_of_not_eq_true fun h => ?_
    obtain ⟨_, _, _, hmore⟩ := (takesRepeat_iff _).mp h
    exact hmore rfl

end Sys2Proof.Proofs

/-! ## Playback of any length and any number of frames -/

namespace Sys2Proof.Machine

/-- The value that is held after `i` more values, as long as repeats remain: the queued values come first,
then the live entries from `apt` on, round and round (42 R105, R107). -/
def toPlay (b : Block) (i : Nat) : Ticks :=
  b.fifo.getD i (widen (b.arr.read ((b.apt + (i - b.fifo.length)) % b.icm)))

/-- A block that plays, between a session's beginning and its end: fetches stay within the live entries,
and the queue runs empty only when the last frame is fetched (42 R105 to R107, R112). -/
structure Playing (b : Block) : Prop where
  active : b.active = true
  feedFault : b.feedFault = false
  live : inLiveEntries b
  queueFits : b.fifo.length ≤ preloadMax
  starved : b.fifo = [] → b.apt = b.icm ∧ b.reps = 1#16
  nonempty : b.reps ≠ 1#16 → 0 < b.icm

section Feed

variable {cfg : Cfg} {b : Block} {w : Ticks} {q : List Ticks}

theorem toPlay_of_lt {i : Nat} (h : i < b.fifo.length) : toPlay b i = b.fifo[i] := by
  simp [toPlay, h]

theorem toPlay_of_ge {i : Nat} (h : b.fifo.length ≤ i) :
    toPlay b i = widen (b.arr.read ((b.apt + (i - b.fifo.length)) % b.icm)) := by
  simp [toPlay, h]

/-- The head is the value played next. -/
theorem toPlay_zero (hq : b.fifo = w :: q) : toPlay b 0 = w := by
  simp [toPlay, hq]

/-- With the head taken, the other values are one dequeue nearer. -/
theorem toPlay_holdNext (hq : b.fifo = w :: q) (i : Nat) :
    toPlay (holdNext w q b) i = toPlay b (i + 1) := by
  simp [toPlay, hq]

/-- Queueing the next entry leaves what is to be played, if `apt` goes on behind it. -/
theorem toPlay_of_pushed {b' : Block} (harr : b'.arr = b.arr) (hicm : b'.icm = b.icm)
    (hpush : b'.fifo = b.fifo ++ [widen (b.arr.read (b.apt % b.icm))])
    (hapt : ∀ i, (b'.apt + i) % b.icm = (b.apt + (i + 1)) % b.icm) : toPlay b' = toPlay b := by
  funext i
  have hlen : b'.fifo.length = b.fifo.length + 1 := by simp [hpush]
  rcases Nat.lt_trichotomy i b.fifo.length with hi | rfl | hi
  · rw [toPlay_of_lt (by omega), toPlay_of_lt hi]
    simp only [hpush, List.getElem_append_left hi]
  · rw [toPlay_of_lt (by omega), toPlay_of_ge le_rfl]
    simp [hpush]
  · rw [toPlay_of_ge (by omega), toPlay_of_ge hi.le, harr, hicm, hapt, hlen]
    congr 5
    omega

/-- `FEED` moves an entry into the queue and so leaves what is to be played (42 R105, R107). -/
theorem toPlay_feed (hlive : inLiveEntries b) (hroom : b.fifo.length < cfg.fifoDepth) :
    toPlay (feed cfg b) = toPlay b := by
  rcases feed_of_live hlive hroom with ⟨hlt, e⟩ | ⟨_, _, e⟩ | ⟨hend, _, e⟩ <;> rw [e]
  case inl =>
    refine toPlay_of_pushed rfl rfl ?_ fun i => ?_
    · rw [Nat.mod_eq_of_lt hlt]
    · rw [Nat.add_right_comm, Nat.add_assoc]
  case inr.inl => rfl
  case inr.inr =>
    refine toPlay_of_pushed rfl rfl ?_ fun i => ?_
    · rw [hend, Nat.mod_self]
    · rw [hend, Nat.add_mod_left, Nat.add_comm]

/-- `FEED` leaves `reps`, or counts a repeat (42 R105, R107). -/
theorem feed_reps (cfg : Cfg) (b : Block) :
    (feed cfg b).reps = b.reps ∨ (feed cfg b).reps = repsAfterRepeat b := by
  rcases feed_cases cfg b with ⟨_, e⟩ | ⟨_, _, _, e⟩ | ⟨_, _, _, e⟩ | ⟨_, _, _, e⟩ |
    ⟨_, _, _, _, e⟩ | ⟨_, _, _, _, e⟩ <;> simp [e]

/-- With the head taken, `FEED` is within the live entries and has room in the queue. -/
theorem Playing.holdNext_live (h : Playing b) (hq : b.fifo = w :: q) (hlegal : cfg.legal) :
    inLiveEntries (holdNext w q b) ∧ (holdNext w q b).fifo.length < cfg.fifoDepth := by
  obtain ⟨_, hdepth, _⟩ := hlegal
  have hfits := h.queueFits
  have hpre : preloadMax = 4 := rfl
  rw [hq, List.length_cons] at hfits
  exact ⟨h.live, by rw [holdNext_fifo]; omega⟩

/-- A dequeue with its `FEED` keeps a block playing. -/
theorem Playing.dequeue (h : Playing b) (hq : b.fifo = w :: q) (hlegal : cfg.legal) :
    Playing (feed cfg (holdNext w q b)) := by
  obtain ⟨hlive, hroom⟩ := h.holdNext_live hq hlegal
  obtain ⟨hapt, hicm, hstop, hentries⟩ := h.live
  have hfits : q.length + 1 ≤ preloadMax := by simpa [hq] using h.queueFits
  rcases feed_of_live hlive hroom with ⟨hlt, e⟩ | ⟨hend, hone, e⟩ | ⟨_, hmore, e⟩ <;> rw [e]
  case inl =>
    exact ⟨h.active, h.feedFault, ⟨hlt, hicm, hstop, hentries⟩, by simpa using hfits,
      fun hempty => by simp at hempty, h.nonempty⟩
  case inr.inl =>
    exact ⟨h.active, h.feedFault, h.live, Nat.le_of_succ_le hfits, fun _ => ⟨hend, hone⟩,
      h.nonempty⟩
  case inr.inr =>
    have hpos := h.nonempty hmore
    exact ⟨h.active, h.feedFault, ⟨hpos, hicm, hstop, hentries⟩, by simpa using hfits,
      fun hempty => by simp at hempty, fun _ => hpos⟩

end Feed

/-- A TMR turn keeps a block playing. -/
theorem Playing.tmrTurn {s : State} (h : Playing s.blk) (hlegal : s.cfg.legal) :
    Playing (Machine.tmrTurn s).blk := by
  rcases tmrTurn_cases s with ⟨w, q, _, _, _, hq, e⟩ | ⟨_, _, _, e⟩ | ⟨_, _, e⟩ <;> rw [e]
  · exact h.dequeue hq hlegal
  · exact { h with }
  · exact h

/-- As long as a repeat remains, TMR has an enabled step (42 R107). -/
theorem Playing.enabled {b : Block} (h : Playing b) (hmore : b.reps ≠ 1#16) :
    dequeueEnabled b = true ∨ elapseEnabled b = true := by
  have hsome : b.fifo ≠ [] := fun hempty =>
    have ⟨_, hlast⟩ := h.starved hempty
    hmore hlast
  cases hrunning : b.running with
  | false => exact .inl ((dequeueEnabled_iff b).mpr ⟨h.active, hrunning, hsome, h.feedFault⟩)
  | true => exact .inr (by simp [elapseEnabled, h.active, hrunning, h.feedFault])

/-- The infinite repeat count is never counted down (42 R107). -/
theorem tmrTurn_reps_zero {s : State} (h : s.blk.reps = 0#16) : (tmrTurn s).blk.reps = 0#16 := by
  rcases tmrTurn_cases s with ⟨w, q, _, _, _, _, e⟩ | ⟨_, _, _, e⟩ | ⟨_, _, e⟩ <;> rw [e]
  · rcases feed_reps s.cfg (holdNext w q s.blk) with e | e <;> rw [e]
    · exact h
    · exact (if_pos h).trans h
  · exact h
  · exact h

/-- What is to be played after `SEND`: the live entries, round and round (42 R104). -/
theorem toPlay_afterSend (n : BitVec 16) (v : Bool) (s : State) (i : Nat) :
    let b := (afterSend n v s).blk
    toPlay b i = widen (b.arr.read (i % b.icm)) := by
  intro b
  have hfifo : b.fifo = preload b.arr b.apt := rfl
  have hapt : b.apt = min b.icm preloadMax := rfl
  have hlen : b.fifo.length = b.apt := preload_length _ _
  rcases Nat.lt_or_ge i b.fifo.length with hi | hi
  · rw [toPlay_of_lt hi, Nat.mod_eq_of_lt (by omega)]
    simp [hfifo, preload]
  · rw [toPlay_of_ge hi, hlen, Nat.add_sub_of_le (hlen ▸ hi)]

/-- `SEND` of a non-empty sequence leaves a block that plays (42 R104). -/
theorem Playing.afterSend (n : BitVec 16) (v : Bool) {s : State} (hfault : s.blk.feedFault = false)
    (hlegal : s.cfg.legal) (hpos : 0 < (afterSend n v s).blk.icm) :
    Playing (afterSend n v s).blk where
  active := rfl
  feedFault := hfault
  live := afterSend_inLiveEntries n v hlegal
  queueFits := (afterSend_fifo_length n v s).trans_le (Nat.min_le_right _ _)
  starved hempty := by
    have hlen := afterSend_fifo_length n v s
    have hsome : 0 < (Machine.afterSend n v s).blk.apt := Nat.lt_min.mpr ⟨hpos, by decide⟩
    rw [hempty, List.length_nil] at hlen
    omega
  nonempty _ := hpos

end Sys2Proof.Machine

/-! ## The values a playback holds -/

namespace Sys2Proof.Machine

/-- What TMR's turns leave, however many (10 R31). -/
theorem iterate_tmrTurn_frame (k : Nat) (s : State) :
    (tmrTurn^[k] s).cfg = s.cfg ∧ (tmrTurn^[k] s).blk.arr = s.blk.arr ∧
      (tmrTurn^[k] s).blk.icm = s.blk.icm ∧ (tmrTurn^[k] s).blk.started = s.blk.started := by
  induction k with
  | zero => exact ⟨rfl, rfl, rfl, rfl⟩
  | succ k ih => simpa only [Function.iterate_succ_apply', tmrTurn_frame] using ih

theorem iterate_tmrTurn_unattended (k : Nat) {s : State} (h : unattended s) :
    unattended (tmrTurn^[k] s) :=
  Function.Iterate.rec unattended h (fun _ => tmrTurn_unattended) k

/-- A playback goes on as long as no more than TMR moves. -/
theorem Playing.iterate {s : State} (h : Playing s.blk) (hlegal : s.cfg.legal) (k : Nat) :
    Playing (Machine.tmrTurn^[k] s).blk := by
  induction k with
  | zero => exact h
  | succ k ih =>
    obtain ⟨hcfg, _⟩ := iterate_tmrTurn_frame k s
    rw [Function.iterate_succ_apply']
    exact ih.tmrTurn (hcfg ▸ hlegal)

/-- The state `u` of a playback from `t`, left alone, before its dequeue `k`: what is left to play is what
`t` had to play after its first `k` values, and these have been played, none truncated. -/
structure PlayedFrom (t : State) (k : Nat) (u : State) : Prop where
  cfg : u.cfg = t.cfg
  playing : Playing u.blk
  running : u.blk.running = false
  next : ∀ i, toPlay u.blk i = toPlay t.blk (k + i)
  played : ∃ l, u.trace = t.trace ++ l ∧
    l.map (fun g => (g.ticks, g.truncated)) =
      (List.range k).map fun i => (toPlay t.blk i, false)

theorem PlayedFrom.start {t : State} (h : Playing t.blk) (hrunning : t.blk.running = false) :
    PlayedFrom t 0 t :=
  ⟨rfl, h, hrunning, fun i => by rw [Nat.zero_add], [], (List.append_nil _).symm, rfl⟩

section Entry

variable {t u : State} {k : Nat} {w : Ticks} {q : List Ticks}

/-- The dequeue of a playback. -/
theorem PlayedFrom.dequeue (h : PlayedFrom t k u) (hq : u.blk.fifo = w :: q) :
    tmrTurn u = { u with
      blk := feed u.cfg (holdNext w q u.blk)
      trace := u.trace ++ [segmentOf (feed u.cfg (holdNext w q u.blk)) w] } :=
  tmrTurn_of_queued h.playing.active h.running h.playing.feedFault hq

/-- The elapse step after it: it leaves the block but for `running`. -/
theorem PlayedFrom.elapse (h : PlayedFrom t k u) (hlegal : t.cfg.legal)
    (hq : u.blk.fifo = w :: q) : tmrTurn (tmrTurn u) = elapseStep (tmrTurn u) := by
  have hheld := h.playing.dequeue hq (h.cfg ▸ hlegal)
  rw [h.dequeue hq]
  exact tmrTurn_of_running hheld.active (by simp [feed_frame]) hheld.feedFault

/-- The block when the value has elapsed. -/
theorem PlayedFrom.blk_of_entry (h : PlayedFrom t k u) (hlegal : t.cfg.legal)
    (hq : u.blk.fifo = w :: q) :
    (tmrTurn (tmrTurn u)).blk = { feed u.cfg (holdNext w q u.blk) with running := false } := by
  rw [h.elapse hlegal hq, h.dequeue hq]
  rfl

/-- A dequeue and an elapse play one more value. -/
theorem PlayedFrom.succ (h : PlayedFrom t k u) (hlegal : t.cfg.legal) (hq : u.blk.fifo = w :: q) :
    PlayedFrom t (k + 1) (tmrTurn (tmrTurn u)) := by
  have hlegal' : u.cfg.legal := h.cfg ▸ hlegal
  obtain ⟨hlive, hroom⟩ := h.playing.holdNext_live hq hlegal'
  obtain ⟨l, htrace, hl⟩ := h.played
  have hw : w = toPlay t.blk k := (toPlay_zero hq).symm.trans (h.next 0)
  rw [h.elapse hlegal hq, h.dequeue hq]
  exact
    { cfg := h.cfg
      playing := { h.playing.dequeue hq hlegal' with }
      running := rfl
      next := fun i =>
        calc toPlay (feed u.cfg (holdNext w q u.blk)) i
            _ = toPlay (holdNext w q u.blk) i := by rw [toPlay_feed hlive hroom]
            _ = toPlay u.blk (i + 1) := toPlay_holdNext hq i
            _ = toPlay t.blk (k + 1 + i) := by rw [h.next, Nat.add_assoc, Nat.add_comm 1]
      played := by
        refine ⟨l ++ [segmentOf (feed u.cfg (holdNext w q u.blk)) w], ?_, ?_⟩
        · simp only [elapseStep_trace, htrace, List.append_assoc]
        · rw [List.map_append, hl, List.range_succ, List.map_append, hw]
          rfl }

end Entry

/-- How many values the last frame has left: the queued ones and those from `apt` to the STOP. -/
def valuesLeft (b : Block) : Nat := b.fifo.length + (b.icm - b.apt)

theorem fifo_eq_nil_of_valuesLeft {b : Block} (h : valuesLeft b = 0) : b.fifo = [] := by
  obtain ⟨hlen, _⟩ := Nat.add_eq_zero_iff.mp h
  exact List.eq_nil_of_length_eq_zero hlen

/-- The values left of the last frame, in their order. -/
theorem map_toPlay_valuesLeft {b : Block} (h : b.apt ≤ b.icm) :
    (List.range (valuesLeft b)).map (toPlay b) =
      b.fifo ++ (entriesFrom b.arr b.apt (b.icm - b.apt)).map fun e => e.setWidth 32 := by
  rw [valuesLeft, List.range_add, List.map_append, List.map_map, entriesFrom, List.map_map]
  congr 1
  · refine List.ext_getElem (by simp) fun i hi _ => ?_
    rw [List.length_map, List.length_range] at hi
    simp [toPlay_of_lt hi]
  · refine List.map_congr_left fun i hi => ?_
    have hi' := List.mem_range.mp hi
    have hlt : b.apt + i < b.icm := by omega
    simp only [Function.comp_apply]
    rw [toPlay_of_ge (Nat.le_add_right _ _), Nat.add_sub_cancel_left, Nat.mod_eq_of_lt hlt, widen]

/-- The state `u` of the last frame's playback from `t`: each dequeue has taken one of the values
left. -/
structure LastFrame (t : State) (k : Nat) (u : State) : Prop extends PlayedFrom t k u where
  reps : u.blk.reps = 1#16
  left : k + valuesLeft u.blk = valuesLeft t.blk

theorem LastFrame.succ {t u : State} {k : Nat} (h : LastFrame t k u) (hlegal : t.cfg.legal)
    (hk : k < valuesLeft t.blk) : LastFrame t (k + 1) (tmrTurn (tmrTurn u)) := by
  have hleft := h.left
  simp only [valuesLeft] at hleft hk
  have hsome : u.blk.fifo ≠ [] := fun hempty => by
    obtain ⟨hend, _⟩ := h.playing.starved hempty
    rw [hempty, List.length_nil] at hleft
    omega
  obtain ⟨w, q, hq⟩ := List.exists_cons_of_ne_nil hsome
  obtain ⟨hlive, hroom⟩ := h.playing.holdNext_live hq (h.cfg ▸ hlegal)
  obtain ⟨_, hapt, hfifo, hreps, _⟩ := feed_last_frame hlive h.reps hroom
  obtain ⟨hin, _⟩ := h.playing.live
  simp only [holdNext_fifo, holdNext_apt, holdNext_icm, hq, List.length_cons] at hapt hfifo hleft
  refine { h.toPlayedFrom.succ hlegal hq with reps := ?_, left := ?_ } <;>
    rw [h.toPlayedFrom.blk_of_entry hlegal hq]
  · exact hreps.trans h.reps
  · simp only [valuesLeft, feed_frame, holdNext_icm]
    omega

theorem LastFrame.iterate {t : State} (h : LastFrame t 0 t) (hlegal : t.cfg.legal) {k : Nat}
    (hk : k ≤ valuesLeft t.blk) : LastFrame t k (tmrTurn^[2 * k] t) := by
  induction k with
  | zero => exact h
  | succ k ih =>
    rw [show 2 * (k + 1) = 2 * k + 1 + 1 from rfl, Function.iterate_succ_apply',
      Function.iterate_succ_apply']
    exact (ih (by omega)).succ hlegal hk

/-- At rest with an empty queue the peripheral stalls (43 R123). -/
theorem step_of_stalled {s : State} (halone : unattended s) (hrunning : s.blk.running = false)
    (hempty : s.blk.fifo = []) : step s = .next s := by
  rw [step_of_unattended halone]
  simp [tmrTurn, dequeueEnabled, elapseEnabled, hrunning, hempty]

theorem LastFrame.start {t : State} (h : Playing t.blk) (hrunning : t.blk.running = false)
    (hreps : t.blk.reps = 1#16) : LastFrame t 0 t :=
  ⟨.start h hrunning, hreps, Nat.zero_add _⟩

/-- In a run of `k` steps the last frame is played to its end (42 R110, 43 R123). -/
def PlaysToEnd (k : Nat) (t : State) : Prop :=
  ∃ u, Host.Core.run Sys2Proof.core k t = .next u ∧
    u.trace.length = t.trace.length + valuesLeft t.blk ∧
    (u.trace.drop t.trace.length).map (fun g => (g.ticks, g.truncated)) =
      (t.blk.fifo ++ (entriesFrom t.blk.arr t.blk.apt (t.blk.icm - t.blk.apt)).map
        fun e => e.setWidth 32).map (fun w => (w, false)) ∧
    u.blk.fifo = [] ∧ u.blk.running = false ∧ u.blk.apt = t.blk.icm ∧ step u = .next u

theorem LastFrame.playsToEnd {t : State} (h : LastFrame t 0 t) (hlegal : t.cfg.legal)
    (halone : unattended t) : PlaysToEnd (2 * valuesLeft t.blk) t := by
  have hend := h.iterate hlegal le_rfl
  have hempty := fifo_eq_nil_of_valuesLeft (Nat.add_eq_left.mp hend.left)
  obtain ⟨hapt, _⟩ := h.playing.live
  obtain ⟨hapt', _⟩ := hend.playing.starved hempty
  obtain ⟨_, _, hicm, _⟩ := iterate_tmrTurn_frame (2 * valuesLeft t.blk) t
  obtain ⟨l, htrace, hl⟩ := hend.played
  have hlen : l.length = valuesLeft t.blk := by simpa using congrArg List.length hl
  refine ⟨_, run_of_unattended _ halone, ?_, ?_, hempty, hend.running, hapt'.trans hicm,
    step_of_stalled (iterate_tmrTurn_unattended _ halone) hend.running hempty⟩
  · rw [htrace, List.length_append, hlen]
  · rw [htrace, List.drop_left, hl, ← map_toPlay_valuesLeft hapt, List.map_map]
    rfl

/-- A value that is being held has been played already: it only has to elapse. -/
theorem Playing.playsToEnd {t : State} (h : Playing t.blk) (hreps : t.blk.reps = 1#16)
    (hlegal : t.cfg.legal) (halone : unattended t) :
    PlaysToEnd (2 * valuesLeft t.blk + if t.blk.running then 1 else 0) t := by
  cases hrunning : t.blk.running with
  | false => exact (LastFrame.start h hrunning hreps).playsToEnd hlegal halone
  | true =>
    have hstep : step t = .next (elapseStep t) := by
      rw [step_of_unattended halone, tmrTurn_of_running h.active hrunning h.feedFault]
    obtain ⟨u, hrun, hend⟩ := (LastFrame.start (t := elapseStep t) { h with } rfl hreps).playsToEnd
      hlegal halone
    exact ⟨u, (run_succ_of_step hstep _).trans hrun, hend⟩

end Sys2Proof.Machine

namespace Sys2Proof.Proofs

open Sys2Proof.Machine

/-- Settles O43: the block plays with an infinite repeat count after every turn. -/
theorem infinitePlaybackNeverEnds : Obligations.InfinitePlaybackNeverEnds := by
  intro s t v hs hfault hlegal ht hpos k
  rw [exec_send] at ht
  cases ht
  have halone : unattended (afterSend 0#16 v s) := hs
  have hplaying := (Playing.afterSend 0#16 v hfault hlegal hpos).iterate hlegal k
  have hreps : (tmrTurn^[k] (afterSend 0#16 v s)).blk.reps = 0#16 :=
    Function.Iterate.rec (fun u : State => u.blk.reps = 0#16) rfl (fun _ => tmrTurn_reps_zero) k
  exact ⟨_, run_of_unattended k halone, hplaying.enabled (by rw [hreps]; decide)⟩

/-- Settles O46: `CANCEL` makes the present frame the last one. -/
theorem cancelledPlaybackEnds : Obligations.CancelledPlaybackEnds := by
  intro s t hs hlegal hactive hfault hlive hfits hstarved ht
  cases ht
  have hplaying : Playing { s.blk with reps := 1#16 } :=
    ⟨hactive, hfault, hlive, hfits, fun hempty => ⟨hstarved hempty, rfl⟩, fun h => absurd rfl h⟩
  exact hplaying.playsToEnd (t := { s with blk := _, response := okResponse }) rfl hlegal hs

end Sys2Proof.Proofs

/-! ## The counts of a playback -/

namespace Sys2Proof.Machine

/-- The counts of a session `SEND n` before its dequeue `k`, `r` repeats having been started: what is
fetched is dequeued or queued, and `ict` with the queue is ahead of `apt` by the preload from the first
repeat on (42 R104, R105, R107). -/
structure SessionCounts (n : BitVec 16) (k r : Nat) (b : Block) : Prop where
  frames : (n = 0#16 ∧ b.reps = 0#16) ∨ (0 < b.reps.toNat ∧ b.reps.toNat + r = n.toNat)
  fetched : r * b.icm + b.apt = k + b.fifo.length
  counted : b.ict + b.fifo.length = b.apt + if r = 0 then 0 else min b.icm preloadMax
  begun : 0 < b.apt
  queued : b.fifo.length ≤ min b.icm preloadMax
  full : b.fifo.length = min b.icm preloadMax ∨ (b.apt = b.icm ∧ b.reps = 1#16)

/-- The count after the `FEED` of a dequeue: a repeat restarts it (42 R105, R107). -/
theorem Playing.ict_dequeue {b : Block} (h : Playing b) {w : Ticks} {q : List Ticks} {cfg : Cfg}
    (hq : b.fifo = w :: q) (hlegal : cfg.legal) : (feed cfg (holdNext w q b)).ict =
      if b.apt = b.icm ∧ b.reps ≠ 1#16 then 1 else b.ict + 1 := by
  obtain ⟨hlive, hroom⟩ := h.holdNext_live hq hlegal
  rcases feed_of_live hlive hroom with ⟨hlt, e⟩ | ⟨_, hone, e⟩ | ⟨hend, hmore, e⟩ <;> rw [e]
  · exact (if_neg fun ⟨hend, _⟩ => Nat.ne_of_lt hlt hend).symm
  · exact (if_neg fun ⟨_, hmore⟩ => hmore hone).symm
  · exact (if_pos ⟨hend, hmore⟩).symm

theorem reps_eq_one_iff (b : Block) : b.reps = 1#16 ↔ b.reps.toNat = 1 := BitVec.toNat_eq

section SessionCounts

variable {n : BitVec 16} {k r : Nat} {b : Block}

theorem SessionCounts.afterSend (n : BitVec 16) (v : Bool) (s : State)
    (hpos : 0 < (afterSend n v s).blk.icm) : SessionCounts n 0 0 (afterSend n v s).blk where
  frames := by
    by_cases hn : n = 0#16
    · exact .inl ⟨hn, hn⟩
    · exact .inr ⟨Nat.pos_of_ne_zero fun h => hn (BitVec.eq_of_toNat_eq h), rfl⟩
  fetched := by rw [Nat.zero_mul, afterSend_fifo_length, Nat.add_comm]
  counted := by
    rw [afterSend_fifo_length]
    exact Nat.zero_add _
  begun := Nat.lt_min.mpr ⟨hpos, by decide⟩
  queued := (preload_length _ _).le
  full := .inl (preload_length _ _)

/-- A dequeue keeps the counts. -/
theorem SessionCounts.dequeue (h : SessionCounts n k r b) (hplaying : Playing b) {w : Ticks}
    {q : List Ticks} {cfg : Cfg} (hq : b.fifo = w :: q) (hlegal : cfg.legal) :
    ∃ r', SessionCounts n (k + 1) r' (feed cfg (holdNext w q b)) := by
  obtain ⟨hlive, hroom⟩ := hplaying.holdNext_live hq hlegal
  obtain ⟨hframes, hfetched, hcounted, hbegun, hqueued, hfull⟩ := h
  simp only [hq, List.length_cons] at hfetched hcounted hqueued hfull
  rcases feed_of_live hlive hroom with ⟨hlt, e⟩ | ⟨hend, hone, e⟩ | ⟨hend, hmore, e⟩ <;> rw [e]
  case inl =>
    have hqfull := hfull.resolve_right fun ⟨hend, _⟩ => Nat.ne_of_lt hlt hend
    refine ⟨r, hframes, ?_, ?_, Nat.succ_pos _, ?_, .inl ?_⟩
    all_goals
      simp only [holdNext_icm, holdNext_ict, holdNext_apt, holdNext_fifo, List.length_append,
        List.length_singleton]
      omega
  case inr.inl =>
    refine ⟨r, hframes, ?_, ?_, hbegun, ?_, .inr ⟨hend, hone⟩⟩
    all_goals
      simp only [holdNext_icm, holdNext_ict, holdNext_apt, holdNext_fifo]
      omega
  case inr.inr =>
    have hqfull := hfull.resolve_right fun ⟨_, hone⟩ => hmore hone
    rw [holdNext_apt, holdNext_icm] at hend
    refine ⟨r + 1, ?_, ?_, ?_, Nat.one_pos, ?_, .inl ?_⟩
    · refine hframes.imp (fun ⟨hn, hzero⟩ => ⟨hn, (if_pos hzero).trans hzero⟩)
        fun ⟨hsome, hsum⟩ => ?_
      have hcount := repsAfterRepeat_toNat (b := holdNext w q b) hsome
      have hne := mt (reps_eq_one_iff b).mpr hmore
      simp only [holdNext_reps] at hcount ⊢
      omega
    all_goals
      simp only [holdNext_icm, holdNext_fifo, List.length_append, List.length_singleton,
        Nat.succ_mul, Nat.succ_ne_zero, if_false]
      omega

/-- With the last frame fetched, what is not dequeued is queued (42 R113). -/
theorem SessionCounts.last (h : SessionCounts n k r b) (hend : b.apt = b.icm)
    (hone : b.reps = 1#16) : r + 1 = n.toNat ∧ n.toNat * b.icm = k + b.fifo.length := by
  have hr : r + 1 = n.toNat := by
    rcases h.frames with ⟨_, hzero⟩ | ⟨_, hsum⟩
    · exact absurd (hzero.symm.trans hone) (by decide)
    · rw [← hsum, (reps_eq_one_iff b).mp hone, Nat.add_comm]
  exact ⟨hr, by rw [← h.fetched, ← hr, Nat.succ_mul, hend]⟩

/-- Where the session stands before the dequeue of entry `j` of frame `f`: the fetches are in that frame,
or in the next one, when it is not the last and the preload reaches beyond its end. -/
theorem SessionCounts.position {f j : Nat} (h : SessionCounts n (f * b.icm + j) r b)
    (hapt : b.apt ≤ b.icm) (hj : j < b.icm) (hf : n = 0#16 ∨ f < n.toNat) :
    let more := n = 0#16 ∨ f + 1 < n.toNat
    (r = f ∧ (more ↔ b.reps ≠ 1#16) ∧ b.apt = min b.icm (j + min b.icm preloadMax) ∧
      (more → j + min b.icm preloadMax ≤ b.icm)) ∨
    (r = f + 1 ∧ more ∧ b.icm < j + min b.icm preloadMax) := by
  intro more
  obtain ⟨hframes, hfetched, _, hbegun, hqueued, hfull⟩ := h
  have hone := reps_eq_one_iff b
  have hpre : preloadMax = 4 := rfl
  have hsucc (i : Nat) : (i + 1) * b.icm = i * b.icm + b.icm := Nat.succ_mul i b.icm
  simp only [more, ne_eq, hone, BitVec.toNat_eq (y := 0#16), BitVec.toNat_ofNat, Nat.zero_mod]
    at hframes hfull hf ⊢
  have hlow : f ≤ r := by
    by_contra hlt
    have hle := hsucc r ▸ Nat.mul_le_mul_right b.icm (Nat.lt_of_not_le hlt)
    omega
  have hhigh : r ≤ f + 1 := by
    by_contra hlt
    have hle := hsucc (f + 1) ▸ Nat.mul_le_mul_right b.icm (Nat.lt_of_not_le hlt)
    have hnext := hsucc f
    omega
  obtain rfl | rfl : r = f ∨ r = f + 1 := by omega
  · exact .inl ⟨rfl, by omega, by omega, by omega⟩
  · have hnext := hsucc f
    exact .inr ⟨rfl, by omega, by omega⟩

/-- The count before the dequeue of entry `j` of frame `f`, and whether its `FEED` starts a repeat, by the
table of 42 R111. -/
theorem SessionCounts.table {f j : Nat} (h : SessionCounts n (f * b.icm + j) r b)
    (hapt : b.apt ≤ b.icm) (hj : j < b.icm) (hf : n = 0#16 ∨ f < n.toNat) :
    b.ict = countOnEntry b.icm n f j ∧
      ((b.apt = b.icm ∧ b.reps ≠ 1#16) ↔
        j = b.icm - min b.icm 4 ∧ (n = 0#16 ∨ f + 1 < n.toNat)) := by
  have hfetched := h.fetched
  have hcounted := h.counted
  have hqueued := h.queued
  have hpre : preloadMax = 4 := rfl
  rcases h.position hapt hj hf with ⟨rfl, hmore, hapt', hreach⟩ | ⟨rfl, hmore, hbeyond⟩
  · have hstarts : (b.apt = b.icm ∧ b.reps ≠ 1#16) ↔
        j = b.icm - min b.icm 4 ∧ (n = 0#16 ∨ r + 1 < n.toNat) := by
      rw [← hmore]
      exact and_congr_left fun hmore' => by have hle := hreach hmore'; omega
    refine ⟨?_, hstarts⟩
    have hnot : ¬ (b.icm - min b.icm preloadMax < j ∧ (n = 0#16 ∨ r + 1 < n.toNat)) :=
      fun ⟨hlt, hmore'⟩ => by have hle := hreach hmore'; omega
    rw [countOnEntry, if_neg hnot]
    by_cases hr : r = 0
    · rw [if_pos hr] at hcounted ⊢
      omega
    · rw [if_neg hr] at hcounted ⊢
      omega
  · have hsucc : (f + 1) * b.icm = f * b.icm + b.icm := Nat.succ_mul f b.icm
    rw [countOnEntry, if_pos ⟨by omega, hmore⟩]
    rw [if_neg (Nat.succ_ne_zero f)] at hcounted
    exact ⟨by omega, by omega⟩

end SessionCounts

/-- The state `u` of the session `SEND n` left in `t`, before its dequeue `k`. -/
structure Session (n : BitVec 16) (t : State) (k : Nat) (u : State) : Prop
    extends PlayedFrom t k u where
  icm : u.blk.icm = t.blk.icm
  counts : ∃ r, SessionCounts n k r u.blk

section Session

variable {n : BitVec 16} {t u : State} {k : Nat}

/-- The queue is not empty before all frames are played (42 R106). -/
theorem Session.queued (h : Session n t k u) (hk : n = 0#16 ∨ k < n.toNat * t.blk.icm) :
    ∃ w q, u.blk.fifo = w :: q := by
  refine List.exists_cons_of_ne_nil fun hempty => ?_
  obtain ⟨hend, hone⟩ := h.playing.starved hempty
  obtain ⟨r, hcounts⟩ := h.counts
  obtain ⟨hr, hall⟩ := hcounts.last hend hone
  rw [hempty, List.length_nil, h.icm] at hall
  have hn : n ≠ 0#16 := fun hn => by simp [hn] at hr
  have hlt := hk.resolve_left hn
  omega

theorem Session.succ (h : Session n t k u) (hlegal : t.cfg.legal)
    (hk : n = 0#16 ∨ k < n.toNat * t.blk.icm) : Session n t (k + 1) (tmrTurn (tmrTurn u)) := by
  obtain ⟨w, q, hq⟩ := h.queued hk
  obtain ⟨r, hcounts⟩ := h.counts
  obtain ⟨r', hcounts'⟩ := hcounts.dequeue h.playing hq (h.cfg ▸ hlegal)
  refine { h.toPlayedFrom.succ hlegal hq with icm := ?_, counts := ⟨r', ?_⟩ }
  · simpa only [tmrTurn_frame] using h.icm
  · rw [h.toPlayedFrom.blk_of_entry hlegal hq]
    exact { hcounts' with }

/-- Up to the last entry of the last frame, two turns of TMR play one entry. -/
theorem Session.iterate (h : Session n t 0 t) (hlegal : t.cfg.legal)
    (hk : n = 0#16 ∨ k ≤ n.toNat * t.blk.icm) : Session n t k (tmrTurn^[2 * k] t) := by
  induction k with
  | zero => exact h
  | succ k ih =>
    rw [show 2 * (k + 1) = 2 * k + 1 + 1 from rfl, Function.iterate_succ_apply',
      Function.iterate_succ_apply']
    exact (ih (hk.imp_right Nat.le_of_succ_le)).succ hlegal hk

theorem Session.afterSend (n : BitVec 16) (v : Bool) {s : State} (hfault : s.blk.feedFault = false)
    (hlegal : s.cfg.legal) (hpos : 0 < (afterSend n v s).blk.icm) :
    Session n (afterSend n v s) 0 (afterSend n v s) :=
  { PlayedFrom.start (.afterSend n v hfault hlegal hpos) rfl with
    icm := rfl, counts := ⟨0, .afterSend n v s hpos⟩ }

end Session

end Sys2Proof.Machine

namespace Sys2Proof.Machine

/-- A list that goes round, cut into its rounds. -/
theorem map_range_mod {α : Type} (g : Nat → α) (m n : Nat) :
    (List.range (n * m)).map (fun i => g (i % m)) =
      (List.replicate n ((List.range m).map g)).flatten := by
  induction n with
  | zero => simp
  | succ n ih =>
    rw [Nat.succ_mul, Nat.add_comm, List.range_add, List.map_append, List.map_map,
      List.replicate_succ, List.flatten_cons, ← ih]
    congr 1
    · exact List.map_congr_left fun i hi => by rw [Nat.mod_eq_of_lt (List.mem_range.mp hi)]
    · simp only [Function.comp_def, Nat.add_mod_left]

/-- The values of `n` frames after `SEND`: the live entries, `n` times over (42 R107). -/
theorem map_toPlay_frames (n : BitVec 16) (v : Bool) (s : State) (frames : Nat) :
    let b := (afterSend n v s).blk
    (List.range (frames * b.icm)).map (fun i => (toPlay b i, false)) =
      (List.replicate frames ((entriesFrom b.arr 0 b.icm).map
        fun e => (e.setWidth 32, false))).flatten := by
  intro b
  simp only [b, toPlay_afterSend]
  rw [map_range_mod fun i => (widen ((afterSend n v s).blk.arr.read i), false), entriesFrom,
    List.map_map]
  simp only [Function.comp_def, Nat.zero_add, widen]

/-- A dequeue holds a value (43 R121). -/
theorem tmrTurn_running {s : State} (h : dequeueEnabled s.blk = true) :
    (tmrTurn s).blk.running = true := by
  obtain ⟨hactive, hrunning, hsome, hfault⟩ := (dequeueEnabled_iff _).mp h
  obtain ⟨w, q, hq⟩ := List.exists_cons_of_ne_nil hsome
  rw [tmrTurn_of_queued hactive hrunning hfault hq]
  simp [feed_frame]

section Session

variable {n : BitVec 16} {t u : State}

/-- The end of a session: every frame is fetched and dequeued (42 R113). -/
theorem Session.ends (h : Session n t (n.toNat * t.blk.icm) u) (hn : n ≠ 0#16) :
    u.blk.apt = t.blk.icm ∧ u.blk.reps = 1#16 ∧ u.blk.fifo = [] ∧
      u.blk.ict = if n = 1#16 then t.blk.icm else t.blk.icm + min t.blk.icm 4 := by
  obtain ⟨r, hcounts⟩ := h.counts
  have hfetched := hcounts.fetched
  have hcounted := hcounts.counted
  have hbegun := hcounts.begun
  obtain ⟨hapt, _⟩ := h.playing.live
  rw [← h.icm] at hfetched hcounts ⊢
  have hpre : preloadMax = 4 := rfl
  obtain ⟨hend, hone⟩ : u.blk.apt = u.blk.icm ∧ u.blk.reps = 1#16 := by
    refine hcounts.full.resolve_left fun hfull => ?_
    have hr : r + 1 ≤ n.toNat := by
      rcases hcounts.frames with ⟨hzero, _⟩ | ⟨hsome, hsum⟩
      · exact absurd hzero hn
      · omega
    have hall := Nat.succ_mul r u.blk.icm ▸ Nat.mul_le_mul_right u.blk.icm hr
    omega
  obtain ⟨hr, hall⟩ := hcounts.last hend hone
  have hempty : u.blk.fifo.length = 0 := Nat.add_eq_left.mp hall.symm
  refine ⟨hend, hone, List.eq_nil_of_length_eq_zero hempty, ?_⟩
  have hfirst : n = 1#16 ↔ r = 0 := by
    rw [BitVec.toNat_eq, ← hr]
    exact Nat.succ_inj
  rw [hempty, hend] at hcounted
  simp only [hfirst]
  by_cases hr0 : r = 0
  · rw [if_pos hr0] at hcounted ⊢
    exact hcounted
  · rw [if_neg hr0] at hcounted ⊢
    exact hcounted

/-- The event for entry `j` of frame `f` of a session (42 R105, R111). -/
theorem Session.event {f j : Nat} (h : Session n t (f * t.blk.icm + j) u) (hlegal : t.cfg.legal)
    (hj : j < t.blk.icm) (hf : n = 0#16 ∨ f < n.toNat) :
    let count := countOnEntry t.blk.icm n f j
    let repeats := j = t.blk.icm - min t.blk.icm 4 ∧ (n = 0#16 ∨ f + 1 < n.toNat)
    dequeueEnabled u.blk = true ∧ u.blk.ict = count ∧
      (tmrTurn u).blk.cur = toPlay t.blk (f * t.blk.icm + j) ∧
      ((tmrTurn u).blk.level = .on ↔ count % 2 = 0) ∧
      (repeats → (tmrTurn u).blk.ict = 1) ∧ (¬ repeats → (tmrTurn u).blk.ict = count + 1) := by
  intro count repeats
  have hk : n = 0#16 ∨ f * t.blk.icm + j < n.toNat * t.blk.icm := hf.imp_right fun hlt => by
    have hle := Nat.succ_mul f t.blk.icm ▸ Nat.mul_le_mul_right t.blk.icm hlt
    omega
  obtain ⟨w, q, hq⟩ := h.queued hk
  obtain ⟨r, hcounts⟩ := h.counts
  obtain ⟨hapt, _⟩ := h.playing.live
  have hw : w = toPlay t.blk (f * t.blk.icm + j) := (toPlay_zero hq).symm.trans (h.next 0)
  have hict := h.playing.ict_dequeue hq (h.cfg ▸ hlegal)
  rw [← h.icm] at hcounts hj
  obtain ⟨hcount, hrepeat⟩ := hcounts.table hapt hj hf
  rw [h.icm] at hcount hrepeat hict
  rw [h.toPlayedFrom.dequeue hq]
  refine ⟨(dequeueEnabled_iff _).mpr ⟨h.playing.active, h.running, by simp [hq],
    h.playing.feedFault⟩, hcount, ?_, ?_, fun hyes => ?_, fun hno => ?_⟩
  · simpa [feed_frame] using hw
  · simp only [feed_frame, holdNext_ict, hcount, levelOfCount_eq_on, count]
  · exact hict.trans (if_pos (hrepeat.mpr hyes))
  · exact (hict.trans (if_neg (mt hrepeat.mp hno))).trans (congrArg (· + 1) hcount)

end Session

end Sys2Proof.Machine

namespace Sys2Proof.Proofs

open Sys2Proof.Machine

/-- Settles O42: an empty sequence plays nothing; the others are played as `map_toPlay_frames` says. -/
theorem playbackRepeatsTheEntries : Obligations.PlaybackRepeatsTheEntries := by
  intro s t u n v hs hfault hlegal hn ht hrun
  rw [exec_send] at ht
  cases ht
  rw [run_of_unattended _ (show unattended (afterSend n v s) from hs)] at hrun
  cases hrun
  rw [← map_toPlay_frames]
  rcases Nat.eq_zero_or_pos (afterSend n v s).blk.icm with hempty | hpos
  · simp [hempty]
  · obtain ⟨l, htrace, hl⟩ :=
      ((Session.afterSend n v hfault hlegal hpos).iterate hlegal (.inr le_rfl)).played
    rw [htrace, List.drop_left, hl]

/-- Settles O41: the counts are those of `Session.ends`, the final level that of O49. -/
theorem playbackCountsEveryFrame : Obligations.PlaybackCountsEveryFrame := by
  intro s t n v hs hfault hlegal hn ht hpos
  have hlevels := fun u => everyFrameHasItsLevels s t u n v hs hfault hlegal hn ht hpos
  rw [exec_send] at ht
  cases ht
  have halone : unattended (afterSend n v s) := hs
  have hrun := run_of_unattended (2 * (n.toNat * (afterSend n v s).blk.icm)) halone
  have hend := (Session.afterSend n v hfault hlegal hpos).iterate hlegal (.inr le_rfl)
  obtain ⟨hapt, hreps, hempty, hict⟩ := hend.ends hn
  obtain ⟨_, harr, _⟩ := iterate_tmrTurn_frame (2 * (n.toNat * (afterSend n v s).blk.icm))
    (afterSend n v s)
  obtain ⟨l, htrace, hl⟩ := hend.played
  have hlen : l.length = n.toNat * (afterSend n v s).blk.icm := by
    simpa using congrArg List.length hl
  obtain ⟨hpadded, heven⟩ := hlevels _ hrun
  refine ⟨_, hrun, ?_, hapt, hreps, hempty, hend.playing.active, hend.running, harr, hict,
    fun hv => ?_, step_of_stalled (iterate_tmrTurn_unattended _ halone) hend.running hempty⟩
  · rw [htrace, List.length_append, hlen]
  · obtain ⟨_, hfinal⟩ := heven (hpadded hv)
    exact hfinal

/-- Settles O50: two turns before entry `k` and one turn after, the session is in its event `k`. -/
theorem eventCountTable : Obligations.EventCountTable := by
  intro s t n v f j hs hfault hlegal ht hj hf k count repeats
  rw [exec_send] at ht
  cases ht
  have halone : unattended (afterSend n v s) := hs
  have hk : n = 0#16 ∨ k ≤ n.toNat * (afterSend n v s).blk.icm := hf.imp_right fun hlt => by
    have hle := Nat.succ_mul f (afterSend n v s).blk.icm ▸ Nat.mul_le_mul_right _ hlt
    omega
  have hsession := (Session.afterSend n v hfault hlegal (Nat.zero_lt_of_lt hj)).iterate hlegal hk
  obtain ⟨henabled, hcount, hcur, hlevel, hyes, hno⟩ := hsession.event hlegal hj hf
  have hentry : k % (afterSend n v s).blk.icm = j := by
    rw [Nat.mul_add_mod_self_right, Nat.mod_eq_of_lt hj]
  rw [toPlay_afterSend, hentry] at hcur
  refine ⟨_, _, run_of_unattended _ halone, run_of_unattended _ halone, henabled, hcount, ?_⟩
  rw [Function.iterate_succ_apply']
  exact ⟨hcur, hlevel, hyes, hno⟩

/-- `BUSY` by its value (42 R108). -/
theorem exec_busy {u : State} {icm k : Nat} (hstarted : u.blk.started = true)
    (hicm : u.blk.icm = icm) (hict : u.blk.ict = k) :
    exec .busy u = .next { u with response := some ⟨.ok, decide (k < icm)⟩ } := by
  rw [busyResult u]
  simp only [hstarted, hicm, hict, true_and]

/-- Settles O44: before and after its dequeue, entry `k` of the one frame meets the counts `k` and
`k + 1`. -/
theorem busyThroughOneFrame : Obligations.BusyThroughOneFrame := by
  intro s t v k hs hfault hlegal ht hk
  rw [exec_send] at ht
  cases ht
  have halone : unattended (afterSend 1#16 v s) := hs
  have hframe := FrameProgress.iterate (.afterSend v hfault) hlegal
    (afterSend_inLiveEntries 1#16 v hlegal) hk
  obtain ⟨_, _, hicm, hstarted⟩ := iterate_tmrTurn_frame (2 * k) (afterSend 1#16 v s)
  refine ⟨⟨_, run_of_unattended _ halone, hframe.count, hframe.running,
    exec_busy hstarted hicm hframe.count⟩, fun hlt => ?_⟩
  have hsession := (Session.afterSend 1#16 v hfault hlegal (Nat.zero_lt_of_lt hlt)).iterate
    (k := 0 * (afterSend 1#16 v s).blk.icm + k) hlegal (.inr (by simpa using hk))
  obtain ⟨henabled, hcount, _, _, _, hict⟩ := hsession.event hlegal hlt (.inr Nat.one_pos)
  simp only [Nat.zero_mul, Nat.zero_add] at henabled hcount hict
  rw [← hcount, hframe.count] at hict
  refine ⟨_, run_of_unattended _ halone, ?_⟩
  rw [Function.iterate_succ_apply']
  have hict' := hict fun ⟨_, hmore⟩ => by simp at hmore
  obtain ⟨_, _, _, hicm', hstarted', _⟩ := tmrTurn_frame (tmrTurn^[2 * k] (afterSend 1#16 v s))
  exact ⟨hict', tmrTurn_running henabled,
    exec_busy (hstarted'.trans hstarted) (hicm'.trans hicm) hict'⟩

end Sys2Proof.Proofs

/-! ## TMR with no enabled step, the carrier output -/

namespace Sys2Proof.Machine

/-- Deactivated, TMR has no enabled step (43 R123). -/
theorem tmrTurn_of_inactive {s : State} (h : s.blk.active = false) : tmrTurn s = s := by
  rcases tmrTurn_cases s with ⟨_, _, hactive, _⟩ | ⟨hactive, _⟩ | ⟨_, _, hnone⟩
  · simp [h] at hactive
  · simp [h] at hactive
  · exact hnone

/-- With no value held and none queued, TMR has no enabled step (43 R123). -/
theorem tmrTurn_of_stalled {s : State} (hrunning : s.blk.running = false)
    (hempty : s.blk.fifo = []) : tmrTurn s = s := by
  rcases tmrTurn_cases s with ⟨_, _, _, _, _, hqueued, _⟩ | ⟨_, hheld, _⟩ | ⟨_, _, hnone⟩
  · simp [hempty] at hqueued
  · simp [hrunning] at hheld
  · exact hnone

/-- The frequency does not depend on the level (43 R131). -/
@[simp] theorem carrierOutput_hz (cfg : Cfg) (level : OnOff) :
    (carrierOutput cfg level).hz = cfg.carrierHz := by
  cases level <;> rfl

@[simp] theorem carrierOutput_on_dutyPct (cfg : Cfg) :
    (carrierOutput cfg .on).dutyPct = cfg.dutyOnPct := rfl

@[simp] theorem carrierOutput_off_dutyPct (cfg : Cfg) :
    (carrierOutput cfg .off).dutyPct = if cfg.activeLow then 100 else 0 := rfl

end Sys2Proof.Machine

namespace Sys2Proof.Proofs

open Sys2Proof.Machine

/-- Settles O35: the turn is the elapse step, which keeps all that the dequeue step needs and clears
what it waits for. -/
theorem elapseResult : Obligations.ElapseResult := by
  intro s turns hagenda hactive hrunning hfault
  have hturn := tmrTurn_of_running (s := { s with agenda := turns }) hactive hrunning hfault
  exact ⟨_, (step_of_tmr hagenda).trans (congrArg Host.Outcome.next hturn), rfl,
    fun hqueued => (dequeueEnabled_iff _).mpr ⟨hactive, rfl, hqueued, hfault⟩⟩

/-- Settles O36: each of the three conditions leaves TMR without an enabled step. -/
theorem stalledTurnChangesNothing : Obligations.StalledTurnChangesNothing := by
  intro s turns hagenda hidle
  have hturn : tmrTurn { s with agenda := turns } = { s with agenda := turns } := by
    rcases hidle with hinactive | ⟨hrunning, hempty⟩ | hstuck
    · exact tmrTurn_of_inactive hinactive
    · exact tmrTurn_of_stalled hrunning hempty
    · exact tmrTurn_of_feedFault hstuck
  rw [step_of_tmr hagenda, hturn]

/-- Settles O40: the duty by level, and in a legal configuration the bounds of the on duty. -/
theorem carrierOutputTable : Obligations.CarrierOutputTable := by
  intro s
  have hon : s.blk.level = .on → s.output.dutyPct = s.cfg.dutyOnPct := fun h => by
    rw [State.output, h, carrierOutput_on_dutyPct]
  have hoff : s.blk.level = .off → s.output.dutyPct = if s.cfg.activeLow then 100 else 0 :=
    fun h => by rw [State.output, h, carrierOutput_off_dutyPct]
  refine ⟨carrierOutput_hz _ _, hon, fun h hhigh => ?activeHigh, fun h hlow => ?activeLow,
    fun hlegal h => ?bounds⟩
  case activeHigh => simp [hoff h, hhigh]
  case activeLow => simp [hoff h, hlow]
  case bounds =>
    obtain ⟨_, _, _, hmin, hmax⟩ := hlegal
    rw [hon h]
    exact ⟨hmin, hmax⟩

end Sys2Proof.Proofs

/-! ## The composites: their lengths, and TMR's turns between their primitives -/

namespace Sys2Proof.Machine

/-- Each bit of a frame is two primitives (40 R80). -/
theorem flatMap_bitPrimitives_length (bits : List Bool) :
    (bits.flatMap bitPrimitives).length = 2 * bits.length := by
  induction bits with
  | nil => rfl
  | cons bit rest ih =>
    simp only [List.flatMap_cons, List.length_append, List.length_cons, ih,
      show (bitPrimitives bit).length = 2 from rfl]
    omega

/-- The start symbol and two primitives for each of the 13 bits (40 R80). -/
@[simp] theorem encodePrimitives_length (d : BitVec 13) : (encodePrimitives d).length = 27 := by
  rw [encodePrimitives, List.length_cons, flatMap_bitPrimitives_length, frameBits_length]

/-- TMR's turns are taken one by one until the host's turn ends the interlude (60 R141). -/
theorem interlude_replicate_tmr (k : Nat) (turns : List Turn) (s : State) :
    interlude (List.replicate k .tmr ++ .host :: turns) s =
      ({ tmrTurn^[k] s with agenda := turns }, true) := by
  induction k generalizing s with
  | zero => rfl
  | succ k ih => exact ih (tmrTurn s)

end Sys2Proof.Machine

namespace Sys2Proof.Proofs

open Sys2Proof.Machine

/-- Settles O24: `BUFRST`, the 27 of `ENCODE` and the 2 of `TRIGGER` make up `TRANSMIT`. -/
theorem compositeLengths : Obligations.CompositeLengths := by
  refine ⟨rfl, fun d => ⟨encodePrimitives_length d, ?transmit⟩⟩
  case transmit => simp [transmitPrimitives, triggerPrimitives]

/-- Settles O26: the primitive leaves the agenda to the interlude, which is TMR's `k` turns. -/
theorem compositeAdmitsTmrTurns : Obligations.CompositeAdmitsTmrTurns := by
  intro p q rest s t k turns hp hagenda
  obtain ⟨_, _, hkept, _⟩ := perform_env hp
  have hinterlude : interlude t.agenda t = ({ tmrTurn^[k] t with agenda := turns }, true) := by
    rw [hkept, hagenda, interlude_replicate_tmr]
  simp only [runComposite, hp, hinterlude]

end Sys2Proof.Proofs

/-! ## No step stops the machine

The one way to stop is an `ADD` with the pointer above `CAP`, which the invariant excludes; so it is
enough to carry the invariant to each primitive of a composite. -/

namespace Sys2Proof.Machine

/-- The outcome is a next state, neither a fault nor a refusal. -/
def Answers (o : Host.Outcome State Fault Refusal) : Prop := ∃ t, o = .next t

theorem answers_next (t : State) : Answers (.next t) := ⟨t, rfl⟩

/-- `APPEND` checks its pointer, so that it reaches no entry that does not exist (41 R91). -/
theorem appendPrim_ne_stops (d : Entry) (s : State) (f : Fault) : appendPrim d s ≠ .stops f := by
  rcases appendPrim_cases d s with ⟨_, e⟩ | ⟨_, e⟩ <;> simp [e]

/-- With the pointer in range `ADD` extends an entry that exists (41 R92). -/
theorem addPrim_ne_stops {s : State} (hrange : s.blk.aptr ≤ CAP) (x : Int) (f : Fault) :
    addPrim x s ≠ .stops f := by
  rcases addPrim_cases x s with ⟨_, e⟩ | ⟨_, _, e⟩ | ⟨_, hout, _⟩ | ⟨_, _, _, _, e⟩ |
    ⟨_, _, _, _, e⟩
  · simp [e]
  · simp [e]
  · exact absurd hrange (Nat.not_le.mpr hout)
  · simp [e]
  · simp [e]

theorem perform_ne_stops {s : State} (hrange : s.blk.aptr ≤ CAP) (p : Primitive) (f : Fault) :
    perform p s ≠ .stops f := by
  cases p with
  | bufrst => exact Effect.noConfusion
  | append d => exact appendPrim_ne_stops d s f
  | encodeBit want =>
    rcases encodeBitPrim_cases want s with e | e
    · exact e.trans_ne (addPrim_ne_stops hrange _ f)
    · exact e.trans_ne (appendPrim_ne_stops _ s f)
  | send r v => exact Effect.noConfusion

/-- A primitive answers unless it stops: a host fault is a response (60 R136). -/
theorem finish_answers (s : State) {e : Effect} (h : ∀ f, e ≠ .stops f) : Answers (finish s e) := by
  cases e with
  | done t => exact answers_next _
  | raises f => exact answers_next _
  | stops f => exact absurd rfl (h f)

/-- A composite completes, ends at a host fault or is lost to RESET. -/
theorem Inv.runComposite_answers (ps : List Primitive) {s : State} (hs : Inv s) :
    Answers (runComposite ps s) := by
  induction ps generalizing s with
  | nil => exact answers_next _
  | cons p rest ih =>
    cases rest with
    | nil => exact finish_answers s (perform_ne_stops hs.aptrRange p)
    | cons q rest =>
      cases hp : Machine.perform p s with
      | done t =>
        have hu := interlude_keeps kept_inv t.agenda t (hs.perform hp)
        cases hi : interlude t.agenda t with
        | mk u go =>
          rw [hi] at hu
          simp only [runComposite, hp, hi]
          cases go with
          | true => exact ih hu
          | false => exact answers_next u
      | raises f =>
        rw [runComposite_of_raises _ hp]
        exact answers_next _
      | stops f => exact absurd hp (perform_ne_stops hs.aptrRange p f)

theorem Inv.exec_answers {s : State} (hs : Inv s) (i : Instr) : Answers (exec i s) := by
  rcases exec_eq i s with e | ⟨x, _, e⟩ | ⟨_, e⟩ | ⟨_, e⟩ <;> rw [e]
  · exact hs.runComposite_answers _
  · exact finish_answers s (addPrim_ne_stops hs.aptrRange x)
  · exact answers_next _
  · exact answers_next _

/-- A word that selects no command is answered with a host fault (30 R70). -/
theorem Inv.acceptWord_answers {s : State} (hs : Inv s) (w : Command) : Answers (acceptWord w s) := by
  unfold acceptWord
  split
  · exact hs.exec_answers _
  · exact answers_next _

theorem Inv.hostTurn_answers {s : State} (hs : Inv s) : Answers (hostTurn s) := by
  unfold hostTurn
  split
  · exact answers_next s
  · exact (kept_inv.env s _ s.agenda s.response hs).acceptWord_answers _

theorem Inv.defaultTurn_answers {s : State} (hs : Inv s) : Answers (defaultTurn s) := by
  unfold defaultTurn
  split
  · exact answers_next _
  · exact (kept_inv.env s _ s.agenda s.response hs).acceptWord_answers _

end Sys2Proof.Machine

namespace Sys2Proof.Proofs

open Sys2Proof.Machine

/-- Settles O13: TMR and RESET always answer, and the host's turn does by the induction over a
composite. -/
theorem stepNeverStops : Obligations.StepNeverStops := by
  intro s hs
  change Answers (nextTurn s)
  unfold nextTurn
  split
  · exact hs.defaultTurn_answers
  · exact (kept_inv.env s s.port _ s.response hs).hostTurn_answers
  · exact answers_next _
  · exact answers_next _

end Sys2Proof.Proofs

/-! ## The RESET input, on its turn and between two primitives -/

namespace Sys2Proof.Machine

/-- 10 R32 gives every element but `cur` a value, and `Block.afterReset` takes that one from its
caller. -/
theorem afterReset_eq_reset_with_cur (cur : Ticks) :
    Block.afterReset cur = { State.reset.blk with cur := cur } := rfl

/-- RESET's turn laid down in the agenda (70 R160). -/
theorem step_of_reset {s : State} {turns : List Turn} (h : s.agenda = .reset :: turns) :
    step s = .next (resetTurn { s with agenda := turns }) := by
  simp only [step, nextTurn, h]

/-- RESET ends the interlude at once, and the command is lost (70 R160; notes/assumptions/8.md). -/
theorem interlude_reset (turns : List Turn) (s : State) :
    interlude (.reset :: turns) s = ({ resetTurn s with agenda := turns }, false) := rfl

end Sys2Proof.Machine

namespace Sys2Proof.Proofs

open Sys2Proof.Machine

/-- Settles O10: the step is `resetTurn`, and what that leaves in each part of the state is its own
lemma, whatever the state was. -/
theorem resetInputFromAnyState : Obligations.ResetInputFromAnyState := by
  intro s turns hagenda
  exact ⟨_, step_of_reset hagenda, afterReset_eq_reset_with_cur _, resetTurn_trace _,
    resetTurn_cfg _, resetTurn_port _, resetTurn_agenda _, resetTurn_response _⟩

/-- Settles O27: the primitive leaves the agenda to the interlude, which is RESET's turn and gives
the host no further one. -/
theorem resetAbandonsComposite : Obligations.ResetAbandonsComposite := by
  intro p q rest s t turns hp hagenda
  obtain ⟨_, _, hkept, _⟩ := perform_env hp
  have hinterlude : interlude t.agenda t = ({ resetTurn t with agenda := turns }, false) := by
    rw [hkept, hagenda, interlude_reset]
  simp only [runComposite, hp, hinterlude]

end Sys2Proof.Proofs
